-- ==== Sys2Proof/Word.lean ====
section
/-! DEFINITION. The word types of the block (30_encoding.md R60, R61, R63; 00_scope.md R8, R10). -/

namespace Sys2Proof

/-- A character: one 8-bit byte (R68). -/
abbrev Byte := BitVec 8

/-- The bits of an IEEE 754 binary64 datum: sign in bit 63, exponent in 62:52, fraction in 51:0 (R10, R69). -/
abbrev F64 := BitVec 64

/-- A packed cell, or the value of a code (R63, R67). -/
abbrev U45 := BitVec 45

/-- A latitude index (R63). -/
abbrev U22 := BitVec 22

/-- A longitude index (R63). -/
abbrev U23 := BitVec 23

/-- Nine characters, the leftmost in the top byte (R43, R68). -/
abbrev Code9 := BitVec 72

end Sys2Proof
end

