-- ==== Sys2Proof/Syntax.lean ====
section
/-! DEFINITION. The request word (30_encoding.md R60) and the instructions: one constructor for each row of
spec/opcode_table.json, with the operands that R63 gives it. -/

namespace Sys2Proof

/-- A request: one 140-bit word of three fields (R60). -/
structure Request where
  /-- Bits 139:136. -/
  op : BitVec 4
  /-- Bits 135:64. -/
  a : BitVec 72
  /-- Bits 63:0. -/
  b : BitVec 64
  deriving DecidableEq, Repr

/-- The sixteen rows of the operation-code table (R62), each with the operands R63 names for it. Every operand has
exactly its own width, so an index out of its range cannot be written down. -/
inductive Instr where
  /-- `B32ENC`, R91. -/
  | b32enc (v : U45)
  /-- `B32DEC`, R94. -/
  | b32dec (code : Code9)
  /-- `UQENC`, R111. -/
  | uqenc (lat lon : F64)
  /-- `UQDEC`, R115. -/
  | uqdec (latIndex : U22) (lonIndex : U23)
  /-- `MQENC`, R135. -/
  | mqenc (lat lon : F64)
  /-- `MQDEC`, R140. -/
  | mqdec (latIndex : U22) (lonIndex : U23)
  /-- `CVAL`, R161. -/
  | cval (lat lon : F64)
  /-- `UNPACK`, R171. -/
  | unpack (packed : U45)
  /-- `PACK`, R172. -/
  | pack (latIndex : U22) (lonIndex : U23)
  /-- Reserved code 0x0, R66. -/
  | reserved0
  /-- Reserved code 0xA, R66. -/
  | reservedA
  /-- Reserved code 0xB, R66. -/
  | reservedB
  /-- Reserved code 0xC, R66. -/
  | reservedC
  /-- Reserved code 0xD, R66. -/
  | reservedD
  /-- Reserved code 0xE, R66. -/
  | reservedE
  /-- Reserved code 0xF, R66. -/
  | reservedF
  deriving DecidableEq, Repr

end Sys2Proof
end

