-- ==== Sys2Proof/Machine/State.lean ====
section
/-! DEFINITION. The state of the block (10_state.md R20, R28, R29) with the host's side of the ports
(70_reset_and_hazards.md R230), and the ways a step can stop. -/

namespace Sys2Proof.Machine

/-- The error statuses the block produces (60_exceptions.md R200, 93_implementation_defined.md U5). -/
inductive ErrorStatus where
  /-- Code 1, raised by `UQENC`, `MQENC` and `CVAL`. -/
  | rangeError
  /-- Code 3, raised by `B32DEC`. -/
  | invalidCharacter
  /-- Code 4, raised by a reserved operation code. -/
  | illegalOp
  deriving DecidableEq, Repr

/-- A response (30_encoding.md R61). An OK response has `info = 0` and both result fields; an error response has its
status and `info` and no payload: "A model should give an error response no payload at all" (R65, U1). -/
inductive Response where
  /-- Status `OK` (code 0). -/
  | ok (x : BitVec 72) (y : BitVec 64)
  /-- Any other status. -/
  | error (e : ErrorStatus) (info : BitVec 12)
  deriving DecidableEq, Repr

/-- The full transaction slot: `slot.rsp` of R28 and, the MODEL's own, how many cycles of `LATENCY` (R235) remain and
the index of the free values this transaction uses. -/
structure Slot where
  /-- `slot.rsp`. -/
  rsp : Response
  /-- The MODEL's own: cycles until `rsp_valid` rises. -/
  wait : Nat
  /-- The MODEL's own: the index at which this transaction reads the opaque constants of Config. -/
  tag : Nat
  deriving DecidableEq, Repr

/-- What the host and the platform drive on the input ports at one rising edge of `clk` (R230). -/
structure Pins where
  /-- `rst`. -/
  rst : Bool
  /-- `req_valid`. -/
  reqValid : Bool
  /-- `req_op`, `req_a`, `req_b`. -/
  req : Request
  /-- `rsp_ready`. -/
  rspReady : Bool
  deriving DecidableEq, Repr

/-- The state. The tables `ALPHA` and `IDX` of R20 are constants of the design, "ROM", and stand in
Sys2Proof/Machine/Tables.lean as R40 allows. -/
structure State where
  /-- `slot.full` and `slot.rsp`: `none` is `slot.full = 0`, when there is no response to read (R28, R29, U2). -/
  slot : Option Slot
  /-- The inputs of the coming rising edges, the next one first: what the host and the platform will drive (R14, R230).
  No step writes here but by using up the first. -/
  stimulus : List Pins
  /-- The MODEL's own: the request that was offered at the last edge and not accepted, which the host must still be
  holding (R234). -/
  offer : Option Request
  /-- The MODEL's own: the number of edges so far, the index of the next free value. -/
  draws : Nat
  deriving DecidableEq, Repr

/-- The machine right after reset: `slot.full = 0` (R29). No host has driven anything yet, and the model's own counter
is at 0 (notes/assumptions/6.md). -/
def State.reset : State where
  slot := none
  stimulus := []
  offer := none
  draws := 0

/-- The ways the machine stops with a fault: none. Every operation ends in a response (R204), no table read can fault
(R44), and the block never hangs (R237). -/
inductive Fault where
  deriving DecidableEq, Repr

/-- The ways a step is refused. -/
inductive Refusal where
  /-- Raised by an arm of `exec` whose instruction has no meaning yet. No arm raises it now. Safe. -/
  | notModelled (mnemonic : String)
  /-- Raised by `step` when the host withdraws or changes a request it has offered and the block has not yet accepted:
  the block's behaviour is then unspecified, and 93_implementation_defined.md U3 gives the treatment "refuse" (R234).
  Safe: nothing can be proved of the step. -/
  | requestNotHeld
  deriving DecidableEq, Repr

end Sys2Proof.Machine
end

