-- ==== Sys2Proof/Machine/Flags.lean ====
section
/-! DEFINITION. The outcome fields of a response. The block has no persistent flag (10_state.md R23): the `status` and
`info` of the response are its only outcome indication (60_exceptions.md R200, R201). -/

namespace Sys2Proof.Machine

/-- The status code of an error (R200). -/
def errorCode : ErrorStatus → BitVec 3
  | .rangeError => 1
  | .invalidCharacter => 3
  | .illegalOp => 4

/-- The status code of a response (R200). -/
def statusCode : Response → BitVec 3
  | .ok _ _ => 0
  | .error e _ => errorCode e

/-- The `info` field of a response; 0 when the status is `OK` (R61, R201). -/
def infoField : Response → BitVec 12
  | .ok _ _ => 0
  | .error _ info => info

/-- `info` of a `RangeError`: bit 0 is `lat_bad`, bit 1 is `lon_bad` (R161, R201). -/
def rangeInfo (latBad lonBad : Bool) : BitVec 12 := 0#10 ++ BitVec.ofBool lonBad ++ BitVec.ofBool latBad

/-- `info` of an `InvalidCharacter`: the byte as received and its position (R94, R201). -/
def charInfo (c : Byte) (k : Nat) : BitVec 12 := c ++ BitVec.ofNat 4 k

/-- `info` of an `IllegalOp`: the operation code received (R66, R201). -/
def opInfo (op : BitVec 4) : BitVec 12 := op.setWidth 12

end Sys2Proof.Machine
end

