-- ==== Sys2Proof/Machine/Operands.lean ====
section
/-! DEFINITION. How operands are read apart and results put together (30_encoding.md R61, R63, R65, R68). -/

namespace Sys2Proof.Machine

/-- Character `k` of a code, `f[71 − 8k : 64 − 8k]` (R68). -/
def charAt (f : Code9) (k : Nat) : Byte := f.extractLsb' (64 - 8 * k) 8

/-- The nine characters of a code, left to right (R68). -/
def chars (f : Code9) : List Byte := (List.range 9).map (charAt f)

/-- Characters packed leftmost on top (R43, R68). -/
def packChars (cs : List Byte) : Code9 := cs.foldl (fun acc c => (acc <<< 8) ||| c.setWidth 72) 0

/-- An OK response with a code in `x` (R63). -/
def codeResult (code : Code9) : Response := .ok code 0

/-- An OK response with a 45-bit value in `x[44:0]` (R63, R65). -/
def valueResult (v : U45) : Response := .ok (v.setWidth 72) 0

/-- An OK response with a cell in `x[21:0]` and `y[22:0]` (R63, R65). -/
def cellResult (latIndex : U22) (lonIndex : U23) : Response := .ok (latIndex.setWidth 72) (lonIndex.setWidth 64)

/-- An OK response with a coordinate in `x[63:0]` and `y` (R63, R65). -/
def coordResult (lat lon : F64) : Response := .ok (lat.setWidth 72) lon

/-- An OK response with no result beyond the status (R63). -/
def emptyResult : Response := .ok 0 0

end Sys2Proof.Machine
end

