-- ==== Sys2Proof/Config.lean ====
section
/-! DEFINITION. What is fixed when the block is built: the source's constants (00_scope.md R6), the configuration
fields of R7, and the values the spec leaves open, as opaque constants that no proof can look into. -/

namespace Sys2Proof.Config

/-- The identity string of R1. Documentation only: no operation returns it (R179). -/
def identity : String := "GRID9-CORE/v7-ops9"

/-- `LAT_MAX` (R6). -/
def latMax : Nat := 4194303

/-- `LON_MAX` (R6). -/
def lonMax : Nat := 8388607

/-- `TOTAL_LAT_RANGE_M`, the named configuration field of R7 at the value decision D11 gives it (R131). -/
def totalLatRangeM : Nat := 20037600

/-- The arithmetic a quantizer is evaluated in: the configuration field `NUMERICS` (R7, R11), over the type of numbers
`α` it computes with. `Sys2Proof.Machine.binary64` is the default; R12 names exact rationals as another one. -/
structure Numerics (α : Type) where
  /-- The number an operand or a literal of the rules denotes. -/
  ofF64 : F64 → α
  /-- The datum a number leaves the block as. -/
  toF64 : α → F64
  /-- `n2f`. -/
  ofNat : Nat → α
  /-- `fadd`. -/
  add : α → α → α
  /-- `fmul`. -/
  mul : α → α → α
  /-- `fdiv`. -/
  div : α → α → α
  /-- `fabs`. -/
  abs : α → α
  /-- `f2n(ffloor(a))`, the only way the rules use either primitive. -/
  floorNat : α → Nat
  /-- `flt`. -/
  lt : α → α → Bool

/-- The three configuration fields of R7 that the quantizers read. -/
structure Params (α : Type) where
  /-- `NUMERICS`. -/
  num : Numerics α
  /-- `COSDEG` (R13). -/
  cosdeg : F64 → F64
  /-- `TOTAL_LAT_RANGE_M`. -/
  totalLatRangeM : Nat

/-- FREE VALUE, notes/assumptions/1.md. The cosine the block was built with, before the bound CP2 of R13 is imposed on it
(`Sys2Proof.Machine.cosdeg` imposes it). -/
opaque cosdegRaw : F64 → F64

/-- FREE VALUE, notes/assumptions/2.md. `LATENCY` of a transaction (R235): any number of clock cycles, a new one per
transaction. -/
opaque latency : Nat → Nat

/-- FREE VALUE, notes/assumptions/3.md. What the block drives on `rsp_x` and `rsp_y` of an error response
(R65, 93_implementation_defined.md U1). -/
opaque errorPayload : Nat → BitVec 136

/-- FREE VALUE, notes/assumptions/4.md. What the block drives on the response fields while `rsp_valid = 0`
(R235, 93_implementation_defined.md U2). -/
opaque idleResponse : Nat → BitVec 151

/-- FREE VALUE, notes/assumptions/5.md. The sign and payload of the NaN an invalid arithmetic step makes of its two
operands; R175 says that no operation ever reaches one. -/
opaque nanBits : F64 → F64 → F64

end Sys2Proof.Config
end

