-- ==== Sys2Proof/Machine/Ops.lean ====
section
/-! DEFINITION. The operations over the transaction slot (10_state.md R28, 70_reset_and_hazards.md R239) that every
meaning and every edge share, and raising an error. -/

namespace Sys2Proof.Machine

/-- `slot.full` (R28). -/
def State.full (s : State) : Bool := s.slot.isSome

/-- The slot with a response just put into it: `slot.full <- 1`, `slot.rsp <- r` (R28). `LATENCY` and the free values
of this transaction are those at the state's counter (R235). -/
def State.filled (s : State) (r : Response) : State :=
  { s with slot := some { rsp := r, wait := Config.latency s.draws, tag := s.draws } }

/-- `slot.full <- 0` (R28, R29, R231, R236). -/
def State.emptied (s : State) : State := { s with slot := none }

/-- `accept` with the response the request earns: enabled when `slot.full = 0` (R239); a request at a full slot is not
accepted and changes nothing (R236, the trace P6 of 95_test_vectors.md). -/
def accept (r : Response) (s : State) : Host.Outcome State Fault Refusal :=
  match s.slot with
  | none => .next (s.filled r)
  | some _ => .next s

/-- `raise <Status>(info)` (60_exceptions.md R204): the operation ends with this response and nothing else happens. No
state is saved, no mode or mask changes and no control goes anywhere; there is nothing to return from (R207). -/
def raise (e : ErrorStatus) (info : BitVec 12) : Response := .error e info

/-- One cycle of `LATENCY` used up (R235). -/
def State.countDown (s : State) : State :=
  { s with slot := s.slot.map fun sl => { sl with wait := sl.wait - 1 } }

end Sys2Proof.Machine
end

