-- ==== Sys2Proof/Machine/Tables.lean ====
section
/-! DEFINITION. The two constant tables of the Base32 codec (20_memory.md R40, R41, R42), the block's only memory (R26).
They are ROM: no operation writes them, so they are definitions and not fields of State (R27, R40). -/

namespace Sys2Proof.Machine

/-- A table memory: its bytes by rising address. -/
abbrev Memory := List Host.Cell

/-- The canonical form of a memory: addresses strictly rising. Nothing is listed at a default value, because an
unlisted address does not exist. -/
def Memory.wf (m : Memory) : Bool := (m.map Prod.fst).zip ((m.map Prod.fst).drop 1) |>.all fun p => p.1 < p.2

/-- `MemRead(i, 1)` (R9): the byte at entry `i`, or nothing where the table has no such entry. -/
def memRead (m : Memory) (i : Nat) : Option Byte := (m.find? fun c => c.1 == i).map Prod.snd

/-- The alphabet ROM, entry by entry (R41). -/
def alphaRom : Memory :=
  [(0, 0x30), (1, 0x31), (2, 0x32), (3, 0x33), (4, 0x34), (5, 0x35), (6, 0x36), (7, 0x37),
   (8, 0x38), (9, 0x39), (10, 0x41), (11, 0x42), (12, 0x43), (13, 0x44), (14, 0x45), (15, 0x46),
   (16, 0x47), (17, 0x48), (18, 0x4A), (19, 0x4B), (20, 0x4D), (21, 0x4E), (22, 0x50), (23, 0x51),
   (24, 0x52), (25, 0x53), (26, 0x54), (27, 0x56), (28, 0x57), (29, 0x58), (30, 0x59), (31, 0x5A)]

/-- `ALPHA[i]` (R41). The ROM has an entry for every 5-bit index (`alphaRom_reads`), so the default is never taken
(R44: no table read can fault). -/
def alpha (i : BitVec 5) : Byte := (memRead alphaRom i.toNat).getD 0

/-- `upper(c)` (R42): the 26 ASCII lower-case letters and nothing else change. -/
def upper (c : Byte) : Byte := if 0x61 ≤ c ∧ c ≤ 0x7A then c - 0x20 else c

/-- `IDX(c)` (R42): the symbol value of a character, upper or lower case, or `none`. -/
def idx (c : Byte) : Option (BitVec 5) :=
  (alphaRom.find? fun e => e.2 == upper c).map fun e => BitVec.ofNat 5 e.1

end Sys2Proof.Machine
end

