-- ==== Sys2Proof/Machine/Base32.lean ====
section
/-! DEFINITION. Units `base32_encoder` and `base32_decoder` (40_base32.md R91, R94). -/

namespace Sys2Proof.Machine

/-- The digits `d[0]`, `d[1]`, … of R91: the low 5 bits, then the next 5, the least significant first. -/
def digits : Nat → U45 → List (BitVec 5)
  | 0, _ => []
  | n + 1, t => (t &&& 31).setWidth 5 :: digits n (t >>> 5)

/-- The code of a 45-bit value: nine digits through `ALPHA`, reversed to most significant first (R91). -/
def codeOf (v : U45) : Code9 := packChars ((digits 9 v).map alpha).reverse

/-- The response of `B32ENC` (R91). -/
def b32encResponse (v : U45) : Response := codeResult (codeOf v)

/-- `B32ENC` (R91). -/
def execB32enc (v : U45) (s : State) : Host.Outcome State Fault Refusal := accept (b32encResponse v) s

/-- The loop of R94 over the characters from position `k` on, with the value so far: the first character outside the
alphabet raises `InvalidCharacter`. The value is an unbounded integer (R95). -/
def decodeChars : List Byte → Nat → Nat → Response
  | [], _, value => valueResult (BitVec.ofNat 45 value)
  | c :: cs, k, value =>
    match idx c with
    | none => raise .invalidCharacter (charInfo c k)
    | some i => decodeChars cs (k + 1) (value * 32 + i.toNat)

/-- The response of `B32DEC` (R94). -/
def b32decResponse (code : Code9) : Response := decodeChars (chars code) 0 0

/-- `B32DEC` (R94). -/
def execB32dec (code : Code9) (s : State) : Host.Outcome State Fault Refusal := accept (b32decResponse code) s

end Sys2Proof.Machine
end

