-- ==== Sys2Proof/Machine/Float.lean ====
section
/-! DEFINITION. IEEE 754 binary64 arithmetic, round to nearest with ties to even (00_scope.md R10, R11). Every finite
datum is a whole multiple of 2^-1074; a datum is decoded to that multiple, an operation is done on whole numbers without
error, and its result is rounded once. -/

namespace Sys2Proof.Machine

/-- 2^1074: how many times the smallest positive datum goes into 1. -/
def gridUnits : Nat := 1 <<< 1074

/-- 2^52: the weight of an exponent step in a bit pattern, and the hidden bit. -/
def hiddenBit : Nat := 0x10000000000000

/-- The sign bit (R10). -/
def signBit (a : F64) : Bool := a.msb

/-- The exponent and fraction together, bits 62:0 (R10). -/
def magBits (a : F64) : Nat := a.toNat % 0x8000000000000000

/-- The biased exponent, bits 62:52 (R10). -/
def expBits (a : F64) : Nat := magBits a / hiddenBit

/-- The fraction, bits 51:0 (R10). -/
def fracBits (a : F64) : Nat := magBits a % hiddenBit

/-- The pattern of infinity without its sign. -/
def infBits : Nat := 0x7FF0000000000000

/-- A NaN (R10). -/
def isNaN (a : F64) : Bool := infBits < magBits a

/-- An infinity (R10). -/
def isInf (a : F64) : Bool := magBits a == infBits

/-- A finite number (R10). -/
def isFinite (a : F64) : Bool := magBits a < infBits

/-- The magnitude in units of 2^-1074; of an infinity, a number above that of every finite datum. -/
def gridMag (a : F64) : Nat :=
  (if expBits a = 0 then fracBits a else hiddenBit + fracBits a) <<< (expBits a - 1)

/-- The value in units of 2^-1074. -/
def grid (a : F64) : Int := if signBit a then - (gridMag a : Int) else gridMag a

/-- `val(a)` of a finite datum (R10). -/
def val (a : F64) : ℚ := (grid a : ℚ) / (gridUnits : ℚ)

/-- The whole number nearest to `p / q`, a tie to the even one. -/
def nearestEven (p q : Nat) : Nat :=
  if 2 * (p % q) < q then p / q
  else if 2 * (p % q) = q ∧ p / q % 2 = 0 then p / q
  else p / q + 1

/-- Bits 62:0 of the datum nearest to `p / q`, ties to even. With `k` the exponent step of the binade that holds
`p / q`, the quotient in units of `2^k` grid units is below 2^53; it is rounded, and adding it to `k` exponent steps is
the pattern, a carry out of the fraction included. What is too large is infinity. -/
def roundMag (p q : Nat) : Nat :=
  let k := Nat.log2 (p * gridUnits / q) - 52
  min (k * hiddenBit + nearestEven (p * gridUnits) (q <<< k)) infBits

/-- The datum with a given sign nearest to the magnitude `p / q`. -/
def roundTo (neg : Bool) (p q : Nat) : F64 :=
  BitVec.ofNat 64 ((if neg then 0x8000000000000000 else 0) + roundMag p q)

/-- The datum nearest to a rational, ties to even. -/
def roundQ (r : ℚ) : F64 := roundTo (decide (r < 0)) r.num.natAbs r.den

/-- The infinity with a given sign. -/
def infinity (neg : Bool) : F64 := if neg then 0xFFF0000000000000 else 0x7FF0000000000000

/-- The zero with a given sign. -/
def zero (neg : Bool) : F64 := if neg then 0x8000000000000000 else 0

/-- Some quiet NaN: its sign and payload are free (`Config.nanBits`). No operation reaches one (R208). -/
def quietNaN (a b : F64) : F64 := Config.nanBits a b ||| 0x7FF8000000000000

/-- `fadd(a,b)` (R11). An exact zero sum is +0, but of two negative zeros −0. -/
def fadd (a b : F64) : F64 :=
  if isNaN a || isNaN b then quietNaN a b
  else if isInf a then (if isInf b && signBit a != signBit b then quietNaN a b else a)
  else if isInf b then b
  else if grid a + grid b = 0 then zero (signBit a && signBit b)
  else roundTo (decide (grid a + grid b < 0)) (grid a + grid b).natAbs gridUnits

/-- `fsub(a,b)` (R11). No rule uses it. -/
def fsub (a b : F64) : F64 := fadd a (b ^^^ 0x8000000000000000)

/-- `fmul(a,b)` (R11). -/
def fmul (a b : F64) : F64 :=
  let neg := signBit a != signBit b
  if isNaN a || isNaN b then quietNaN a b
  else if isInf a || isInf b then (if gridMag a = 0 ∨ gridMag b = 0 then quietNaN a b else infinity neg)
  else roundTo neg (gridMag a * gridMag b) (gridUnits * gridUnits)

/-- `fdiv(a,b)` (R11). -/
def fdiv (a b : F64) : F64 :=
  let neg := signBit a != signBit b
  if isNaN a || isNaN b then quietNaN a b
  else if isInf a then (if isInf b then quietNaN a b else infinity neg)
  else if isInf b then zero neg
  else if gridMag b = 0 then (if gridMag a = 0 then quietNaN a b else infinity neg)
  else roundTo neg (gridMag a) (gridMag b)

/-- `fabs(a)`: clears the sign bit (R11). -/
def fabs (a : F64) : F64 := a &&& 0x7FFFFFFFFFFFFFFF

/-- `floor(val(a))` of a finite datum (R8). -/
def floorInt (a : F64) : Int := grid a / (gridUnits : Int)

/-- `ffloor(a)` (R11): for a finite `a` the datum of that value. R11 defines it for no other argument (U10); an argument
that is not finite is answered as it is. -/
def ffloor (a : F64) : F64 :=
  if isFinite a then roundTo (decide (floorInt a < 0)) (floorInt a).natAbs 1 else a

/-- `f2n(a)` (R11): the natural number a finite non-negative whole `a` is. R11 defines it for no other argument, and U10
lets a total function return anything there: no reachable behaviour depends on it. -/
def f2n (a : F64) : Nat := (floorInt a).toNat

/-- `n2f(n)` (R11), exact for `n < 2^53`. -/
def n2f (n : Nat) : F64 := roundTo false n 1

/-- `flt(a,b)` (R11): false when either is a NaN. -/
def flt (a b : F64) : Bool := !isNaN a && !isNaN b && decide (grid a < grid b)

/-- `fle(a,b)` (R11): false when either is a NaN. -/
def fle (a b : F64) : Bool := !isNaN a && !isNaN b && decide (grid a ≤ grid b)

/-- `fgt(a,b)` (R11). -/
def fgt (a b : F64) : Bool := flt b a

/-- `fge(a,b)` (R11). -/
def fge (a b : F64) : Bool := fle b a

/-! The literals of the rules, all exactly representable (R10). -/

/-- `lit(−90)`. -/
def litNeg90 : F64 := 0xC056800000000000
/-- `lit(90)`. -/
def lit90 : F64 := 0x4056800000000000
/-- `lit(−180)`. -/
def litNeg180 : F64 := 0xC066800000000000
/-- `lit(180)`. -/
def lit180 : F64 := 0x4066800000000000
/-- `lit(360)`. -/
def lit360 : F64 := 0x4076800000000000
/-- `lit(0.5)`. -/
def litHalf : F64 := 0x3FE0000000000000
/-- `lit(1)`. -/
def lit1 : F64 := 0x3FF0000000000000
/-- `lit(89)`, `POLAR_DEG` (R6). -/
def lit89 : F64 := 0x4056400000000000
/-- `lit(111320)`, `M_PER_DEG_LAT` (R6). -/
def lit111320 : F64 := 0x40FB2D8000000000
/-- `lit(4194304)`, `LAT_CELLS` (R6). -/
def litLatCells : F64 := 0x4150000000000000
/-- `lit(8388608)`, `LON_CELLS` (R6). -/
def litLonCells : F64 := 0x4160000000000000

end Sys2Proof.Machine
end

