-- ==== Sys2Proof/Machine/Numerics.lean ====
section
/-! DEFINITION. The configuration of the quantizers (00_scope.md R7, R11, R12, R13): the default `NUMERICS`, the exact
rationals R12 speaks of, and `COSDEG`. -/

namespace Sys2Proof.Machine

open Sys2Proof.Config (Numerics Params)

/-- The default `NUMERICS`: IEEE 754 binary64, one rounding per operation (R11, decision D9). -/
def binary64 : Numerics F64 where
  ofF64 a := a
  toF64 a := a
  ofNat := n2f
  add := fadd
  mul := fmul
  div := fdiv
  abs := fabs
  floorNat a := f2n (ffloor a)
  lt := flt

/-- `NUMERICS` instantiated with exact rational arithmetic (R12). No step of the block uses it: it is there for the
statements that compare the two. A number is rounded only where it leaves the block. -/
def exactNumerics : Numerics ℚ where
  ofF64 := val
  toF64 := roundQ
  ofNat n := n
  add a b := a + b
  mul a b := a * b
  div a b := a / b
  abs a := |a|
  floorNat a := a.floor.toNat
  lt a b := decide (a < b)

/-- CP2's domain: finite with `|val(a)| <= 89` (R13), by the order of the bit patterns. -/
def cosDomain (a : F64) : Bool := magBits a ≤ magBits lit89

/-- CP2's bound: finite with `2^−7 <= |val(c)| <= 1` (R13), by the order of the bit patterns. -/
def cosBound (c : F64) : Bool := 0x3F80000000000000 ≤ magBits c && magBits c ≤ magBits lit1

/-- `COSDEG` (R13, notes/assumptions/1.md): any function of its argument alone (CP1) that has CP2. The free function
of Config is used as it stands wherever CP2 lets it; so every function with CP2 is `cosdeg` of itself, and `cosdeg` of
every function has CP2. Off CP2's domain any value (U8). -/
def boundedCos (f : F64 → F64) (a : F64) : F64 := if cosDomain a && !cosBound (f a) then lit1 else f a

/-- `COSDEG` of this block. -/
def cosdeg : F64 → F64 := boundedCos Config.cosdegRaw

/-- The configuration of the block (R7). -/
def params : Params F64 := { num := binary64, cosdeg := cosdeg, totalLatRangeM := Config.totalLatRangeM }

/-- The same configuration with exact arithmetic (R12). -/
def exactParams : Params ℚ := { num := exactNumerics, cosdeg := cosdeg, totalLatRangeM := Config.totalLatRangeM }

end Sys2Proof.Machine
end

