-- ==== Sys2Proof/Machine/Validator.lean ====
section
/-! DEFINITION. Unit `coordinate_validator` (43_coordinate_validator.md R160 to R164): the range check, used inside
`UQENC` and `MQENC` and on its own as `CVAL`. -/

namespace Sys2Proof.Machine

/-- `lat_bad` of `range_check` (R160). -/
def latBad (lat : F64) : Bool := !(fge lat litNeg90 && fle lat lit90)

/-- `lon_bad` of `range_check` (R160). -/
def lonBad (lon : F64) : Bool := !(fge lon litNeg180 && fle lon lit180)

/-- The range check in front of an operation: a coordinate outside the bounds raises `RangeError` with a bit for each bad
axis, before any arithmetic (R111, R135, R161). -/
def rangeChecked (lat lon : F64) (r : Response) : Response :=
  if latBad lat || lonBad lon then raise .rangeError (rangeInfo (latBad lat) (lonBad lon)) else r

/-- The response of `CVAL` (R161). -/
def cvalResponse (lat lon : F64) : Response := rangeChecked lat lon emptyResult

/-- `CVAL` (R161). -/
def execCval (lat lon : F64) (s : State) : Host.Outcome State Fault Refusal := accept (cvalResponse lat lon) s

end Sys2Proof.Machine
end

