-- ==== Sys2Proof/Machine/UniformQuantizer.lean ====
section
/-! DEFINITION. Unit `uniform_quantizer` (41_uniform_quantizer.md R110 to R117), over any configuration of the
numerics (R7, R12). -/

namespace Sys2Proof.Machine

open Sys2Proof.Config (Numerics Params)

/-- An axis of `UQENC`: `f2n(ffloor(fmul(fdiv(fadd(x, off), span), cells)))`, clamped to its maximum (R111). -/
def fractionIndex {α : Type} (N : Numerics α) (off span cells : F64) (top : Nat) (x : F64) : Nat :=
  min (N.floorNat (N.mul (N.div (N.add (N.ofF64 x) (N.ofF64 off)) (N.ofF64 span)) (N.ofF64 cells))) top

/-- `fclamp(a, lo, hi)` (R11). -/
def clampTo {α : Type} (N : Numerics α) (lo hi : F64) (a : α) : α :=
  if N.lt a (N.ofF64 lo) then N.ofF64 lo else if N.lt (N.ofF64 hi) a then N.ofF64 hi else a

/-- An axis of `UQDEC` before its clamp: `fadd(lo, fmul(fdiv(fadd(n2f(i), 0.5), cells), span))` (R115). -/
def fractionCentre {α : Type} (N : Numerics α) (lo span cells : F64) (i : Nat) : α :=
  N.add (N.ofF64 lo) (N.mul (N.div (N.add (N.ofNat i) (N.ofF64 litHalf)) (N.ofF64 cells)) (N.ofF64 span))

/-- latIndex of `UQENC` (R111). -/
def uqLatIndex {α : Type} (N : Numerics α) (lat : F64) : Nat :=
  fractionIndex N lit90 lit180 litLatCells Config.latMax lat

/-- lonIndex of `UQENC`, and of `MQENC` in the polar case (R111, R135). -/
def uqLonIndex {α : Type} (N : Numerics α) (lon : F64) : Nat :=
  fractionIndex N lit180 lit360 litLonCells Config.lonMax lon

/-- `lat` of `UQDEC` (R115). -/
def uqLat {α : Type} (N : Numerics α) (latIndex : U22) : F64 :=
  N.toF64 (clampTo N litNeg90 lit90 (fractionCentre N litNeg90 lit180 litLatCells latIndex.toNat))

/-- `lon` of `UQDEC` (R115). -/
def uqLon {α : Type} (N : Numerics α) (lonIndex : U23) : F64 :=
  N.toF64 (clampTo N litNeg180 lit180 (fractionCentre N litNeg180 lit360 litLonCells lonIndex.toNat))

/-- The response of `UQENC` (R111). -/
def uqencResponse {α : Type} (P : Params α) (lat lon : F64) : Response :=
  rangeChecked lat lon
    (cellResult (BitVec.ofNat 22 (uqLatIndex P.num lat)) (BitVec.ofNat 23 (uqLonIndex P.num lon)))

/-- `UQENC` (R111). -/
def execUqenc (lat lon : F64) (s : State) : Host.Outcome State Fault Refusal := accept (uqencResponse params lat lon) s

/-- The response of `UQDEC` (R115). -/
def uqdecResponse {α : Type} (P : Params α) (latIndex : U22) (lonIndex : U23) : Response :=
  coordResult (uqLat P.num latIndex) (uqLon P.num lonIndex)

/-- `UQDEC` (R115). -/
def execUqdec (latIndex : U22) (lonIndex : U23) (s : State) : Host.Outcome State Fault Refusal :=
  accept (uqdecResponse params latIndex lonIndex) s

end Sys2Proof.Machine
end

