-- ==== Sys2Proof/Machine/MeterQuantizer.lean ====
section
/-! DEFINITION. Unit `meter_based_quantizer` (42_meter_based_quantizer.md R130 to R142), over any configuration of the
numerics, the cosine and the latitude range (R7). -/

namespace Sys2Proof.Machine

open Sys2Proof.Config (Numerics Params)

/-- `CELL_SIZE_M` (R131). -/
def cellSizeM {α : Type} (P : Params α) : α := P.num.div (P.num.ofNat P.totalLatRangeM) (P.num.ofF64 litLatCells)

/-- `BC(latIndex)`, the one definition that `MQENC` and `MQDEC` both use (R132). -/
def bandCenter {α : Type} (P : Params α) (latIndex : Nat) : α :=
  P.num.add (P.num.ofF64 litNeg90)
    (P.num.div (P.num.mul (P.num.add (P.num.ofNat latIndex) (P.num.ofF64 litHalf)) (cellSizeM P))
      (P.num.ofF64 lit111320))

/-- `POLAR(latIndex)`: strictly above 89 degrees in magnitude (R134). -/
def polar {α : Type} (P : Params α) (latIndex : Nat) : Bool :=
  P.num.lt (P.num.ofF64 lit89) (P.num.abs (bandCenter P latIndex))

/-- `m`, metres per degree of longitude, from latIndex alone (R136). -/
def metersPerDegLon {α : Type} (P : Params α) (latIndex : Nat) : α :=
  P.num.mul (P.num.ofF64 lit111320) (P.num.abs (P.num.ofF64 (P.cosdeg (P.num.toF64 (bandCenter P latIndex)))))

/-- `lonCell`, `(360·metersPerDegLon)/2^23` (R135, R140). -/
def lonCellM {α : Type} (P : Params α) (latIndex : Nat) : α :=
  P.num.div (P.num.mul (P.num.ofF64 lit360) (metersPerDegLon P latIndex)) (P.num.ofF64 litLonCells)

/-- latIndex of `MQENC` (R135). -/
def mqLatIndex {α : Type} (P : Params α) (lat : F64) : Nat :=
  min (P.num.floorNat
    (P.num.div (P.num.mul (P.num.add (P.num.ofF64 lat) (P.num.ofF64 lit90)) (P.num.ofF64 lit111320)) (cellSizeM P)))
    Config.latMax

/-- lonIndex of `MQENC` off the poles (R135). -/
def mqLonIndexMetres {α : Type} (P : Params α) (latIndex : Nat) (lon : F64) : Nat :=
  min (P.num.floorNat
    (P.num.div (P.num.mul (P.num.add (P.num.ofF64 lon) (P.num.ofF64 lit180)) (metersPerDegLon P latIndex))
      (lonCellM P latIndex)))
    Config.lonMax

/-- lonIndex of `MQENC`: the hard branch at the poles (R134, R135). -/
def mqLonIndex {α : Type} (P : Params α) (latIndex : Nat) (lon : F64) : Nat :=
  if polar P latIndex then uqLonIndex P.num lon else mqLonIndexMetres P latIndex lon

/-- `lat` of `MQDEC` (R140). -/
def mqLat {α : Type} (P : Params α) (latIndex : U22) : F64 :=
  P.num.toF64 (clampTo P.num litNeg90 lit90 (bandCenter P latIndex.toNat))

/-- Degrees from −180° of `MQDEC` off the poles, `z` of R140, added to −180. -/
def lonCentreMetres {α : Type} (P : Params α) (latIndex lonIndex : Nat) : α :=
  P.num.add (P.num.ofF64 litNeg180)
    (P.num.div (P.num.mul (P.num.add (P.num.ofNat lonIndex) (P.num.ofF64 litHalf)) (lonCellM P latIndex))
      (metersPerDegLon P latIndex))

/-- `lon` of `MQDEC`: the same branch as in `MQENC` (R140). -/
def mqLon {α : Type} (P : Params α) (latIndex : U22) (lonIndex : U23) : F64 :=
  P.num.toF64 (clampTo P.num litNeg180 lit180
    (if polar P latIndex.toNat then fractionCentre P.num litNeg180 lit360 litLonCells lonIndex.toNat
     else lonCentreMetres P latIndex.toNat lonIndex.toNat))

/-- The response of `MQENC` (R135): lonIndex is a function of `lon` and of the clamped latIndex (R130). -/
def mqencResponse {α : Type} (P : Params α) (lat lon : F64) : Response :=
  rangeChecked lat lon
    (cellResult (BitVec.ofNat 22 (mqLatIndex P lat)) (BitVec.ofNat 23 (mqLonIndex P (mqLatIndex P lat) lon)))

/-- `MQENC` (R135). -/
def execMqenc (lat lon : F64) (s : State) : Host.Outcome State Fault Refusal := accept (mqencResponse params lat lon) s

/-- The response of `MQDEC` (R140). -/
def mqdecResponse {α : Type} (P : Params α) (latIndex : U22) (lonIndex : U23) : Response :=
  coordResult (mqLat P latIndex) (mqLon P latIndex lonIndex)

/-- `MQDEC` (R140). -/
def execMqdec (latIndex : U22) (lonIndex : U23) (s : State) : Host.Outcome State Fault Refusal :=
  accept (mqdecResponse params latIndex lonIndex) s

end Sys2Proof.Machine
end

