-- ==== Sys2Proof/Machine/PackedCell.lean ====
section
/-! DEFINITION. Unit `packed_cell_unpacker` and its companion `PACK` (44_packed_cell.md R170 to R173). -/

namespace Sys2Proof.Machine

/-- `packed >> 23` (R171). -/
def latIndexOf (packed : U45) : U22 := (packed >>> 23).setWidth 22

/-- `packed & 0x7FFFFF` (R171). -/
def lonIndexOf (packed : U45) : U23 := (packed &&& 0x7FFFFF).setWidth 23

/-- `(latIndex << 23) | lonIndex` (R172). -/
def packCell (latIndex : U22) (lonIndex : U23) : U45 := (latIndex.setWidth 45 <<< 23) ||| lonIndex.setWidth 45

/-- The response of `UNPACK` (R171). -/
def unpackResponse (packed : U45) : Response := cellResult (latIndexOf packed) (lonIndexOf packed)

/-- `UNPACK` (R171). -/
def execUnpack (packed : U45) (s : State) : Host.Outcome State Fault Refusal := accept (unpackResponse packed) s

/-- The response of `PACK` (R172). -/
def packResponse (latIndex : U22) (lonIndex : U23) : Response := valueResult (packCell latIndex lonIndex)

/-- `PACK` (R172). -/
def execPack (latIndex : U22) (lonIndex : U23) (s : State) : Host.Outcome State Fault Refusal :=
  accept (packResponse latIndex lonIndex) s

end Sys2Proof.Machine
end

