-- ==== Sys2Proof/Machine/Reserved.lean ====
section
/-! DEFINITION. The reserved operation codes (30_encoding.md R66): each is answered with `IllegalOp`. -/

namespace Sys2Proof.Machine

/-- The response to a reserved code (R66). -/
def illegalResponse (op : BitVec 4) : Response := raise .illegalOp (opInfo op)

/-- Reserved code 0x0 (R66). -/
def execReserved0 (s : State) : Host.Outcome State Fault Refusal := accept (illegalResponse 0x0) s

/-- Reserved code 0xA (R66). -/
def execReservedA (s : State) : Host.Outcome State Fault Refusal := accept (illegalResponse 0xA) s

/-- Reserved code 0xB (R66). -/
def execReservedB (s : State) : Host.Outcome State Fault Refusal := accept (illegalResponse 0xB) s

/-- Reserved code 0xC (R66). -/
def execReservedC (s : State) : Host.Outcome State Fault Refusal := accept (illegalResponse 0xC) s

/-- Reserved code 0xD (R66). -/
def execReservedD (s : State) : Host.Outcome State Fault Refusal := accept (illegalResponse 0xD) s

/-- Reserved code 0xE (R66). -/
def execReservedE (s : State) : Host.Outcome State Fault Refusal := accept (illegalResponse 0xE) s

/-- Reserved code 0xF (R66). -/
def execReservedF (s : State) : Host.Outcome State Fault Refusal := accept (illegalResponse 0xF) s

end Sys2Proof.Machine
end

