-- ==== Sys2Proof/Machine/Dispatch.lean ====
section
/-! DEFINITION. One arm per row of the operation-code table (30_encoding.md R62). -/

namespace Sys2Proof.Machine

/-- Acceptance of a request that asks for `i` (10_state.md R28, 70_reset_and_hazards.md R233, R239). -/
def exec (i : Instr) (s : State) : Host.Outcome State Fault Refusal :=
  match i with
  | .b32enc v => Sys2Proof.Machine.execB32enc v s
  | .b32dec code => Sys2Proof.Machine.execB32dec code s
  | .uqenc lat lon => Sys2Proof.Machine.execUqenc lat lon s
  | .uqdec latIndex lonIndex => Sys2Proof.Machine.execUqdec latIndex lonIndex s
  | .mqenc lat lon => Sys2Proof.Machine.execMqenc lat lon s
  | .mqdec latIndex lonIndex => Sys2Proof.Machine.execMqdec latIndex lonIndex s
  | .cval lat lon => Sys2Proof.Machine.execCval lat lon s
  | .unpack packed => Sys2Proof.Machine.execUnpack packed s
  | .pack latIndex lonIndex => Sys2Proof.Machine.execPack latIndex lonIndex s
  | .reserved0 => Sys2Proof.Machine.execReserved0 s
  | .reservedA => Sys2Proof.Machine.execReservedA s
  | .reservedB => Sys2Proof.Machine.execReservedB s
  | .reservedC => Sys2Proof.Machine.execReservedC s
  | .reservedD => Sys2Proof.Machine.execReservedD s
  | .reservedE => Sys2Proof.Machine.execReservedE s
  | .reservedF => Sys2Proof.Machine.execReservedF s

end Sys2Proof.Machine
end

