-- ==== Sys2Proof/WellFormed.lean ====
section
/-! DEFINITION. Well-formed requests. Every value of `Instr` is an instruction of the block (its operands have exactly
their widths), and every 140-bit word is a request the block answers (R64, R66). What the spec asks of a well-formed
REQUEST is R64's "A host should drive them to zero": the operand bits that R63 does not name are zero. -/

namespace Sys2Proof

/-- No bit of `a` from bit `n` up is set. -/
def Request.aWithin (n : Nat) (r : Request) : Bool := r.a >>> n == 0

/-- No bit of `b` from bit `n` up is set. -/
def Request.bWithin (n : Nat) (r : Request) : Bool := r.b >>> n == 0

/-- The operand bits R63 does not name for `r.op` are zero (R63, R64; the ignored fields of spec/opcode_table.json). -/
def Request.wf (r : Request) : Bool :=
  match r.op with
  | 0x1#4 => r.aWithin 45 && r.bWithin 0
  | 0x2#4 => r.bWithin 0
  | 0x3#4 => r.aWithin 64
  | 0x4#4 => r.aWithin 22 && r.bWithin 23
  | 0x5#4 => r.aWithin 64
  | 0x6#4 => r.aWithin 22 && r.bWithin 23
  | 0x7#4 => r.aWithin 64
  | 0x8#4 => r.aWithin 45 && r.bWithin 0
  | 0x9#4 => r.aWithin 22 && r.bWithin 23
  | _ => r.aWithin 0 && r.bWithin 0   -- the reserved codes name no operand (R66)

end Sys2Proof
end

