-- ==== Sys2Proof/Decode.lean ====
section
/-! DEFINITION. The request word and its three fields (30_encoding.md R60), the decoder (R62, R63, R64, R66), the
encoder written from the same tables, and the reading of spec/opcode_table.json's numbers. Decoding is total: "A
decoder needs the `op` field only" (R62), every format is the same (R70), and a reserved code is a row of its own. -/

namespace Sys2Proof

/-- The fields of a 140-bit request word (R60). -/
def requestOfWord (w : BitVec 140) : Request where
  op := w.extractLsb' 136 4
  a := w.extractLsb' 64 72
  b := w.extractLsb' 0 64

/-- The 140-bit word of a request (R60). -/
def wordOfRequest (r : Request) : BitVec 140 := r.op ++ r.a ++ r.b

/-- The operand slice `a[44:0]` (R63). -/
def operandU45 (a : BitVec 72) : U45 := a.extractLsb' 0 45

/-- The operand slice `a[63:0]` (R63, R69). -/
def operandF64 (a : BitVec 72) : F64 := a.extractLsb' 0 64

/-- The operand slice `a[21:0]` (R63). -/
def operandU22 (a : BitVec 72) : U22 := a.extractLsb' 0 22

/-- The operand slice `b[22:0]` (R63). -/
def operandU23 (b : BitVec 64) : U23 := b.extractLsb' 0 23

/-- The instruction a request asks for (R62), with its operands taken as R63 says; the other operand bits are ignored
(R64). The last arm is the sixteenth code, 0xF. -/
def decode (r : Request) : Instr :=
  match r.op with
  | 0x0#4 => .reserved0
  | 0x1#4 => .b32enc (operandU45 r.a)
  | 0x2#4 => .b32dec r.a
  | 0x3#4 => .uqenc (operandF64 r.a) r.b
  | 0x4#4 => .uqdec (operandU22 r.a) (operandU23 r.b)
  | 0x5#4 => .mqenc (operandF64 r.a) r.b
  | 0x6#4 => .mqdec (operandU22 r.a) (operandU23 r.b)
  | 0x7#4 => .cval (operandF64 r.a) r.b
  | 0x8#4 => .unpack (operandU45 r.a)
  | 0x9#4 => .pack (operandU22 r.a) (operandU23 r.b)
  | 0xA#4 => .reservedA
  | 0xB#4 => .reservedB
  | 0xC#4 => .reservedC
  | 0xD#4 => .reservedD
  | 0xE#4 => .reservedE
  | _ => .reservedF

/-- Why a number is no request word. -/
inductive DecodeError where
  /-- A bit from bit 140 up is set: every request has the same length, 140 bits (R60, R70). -/
  | longerThanRequest
  deriving DecidableEq, Repr

/-- The instruction in a number read as a request word, bit 0 its least significant bit (R60). -/
def decodeNumber (w : Nat) : Except DecodeError Instr :=
  if w >>> 140 = 0 then .ok (decode (requestOfWord (BitVec.ofNat 140 w))) else .error .longerThanRequest

/-- The instruction the decoder reads from the low `nbits` bits of `w`, numbered as spec/opcode_table.json numbers them;
every bit from bit `nbits` up is 0. -/
def decodeTableWord (nbits w : Nat) : Option Instr :=
  match decodeNumber ((BitVec.ofNat nbits w).toNat) with
  | .ok i => some i
  | .error _ => none

/-- The operation code of an instruction (R62). -/
def opcode : Instr → BitVec 4
  | .reserved0 => 0x0#4
  | .b32enc _ => 0x1#4
  | .b32dec _ => 0x2#4
  | .uqenc _ _ => 0x3#4
  | .uqdec _ _ => 0x4#4
  | .mqenc _ _ => 0x5#4
  | .mqdec _ _ => 0x6#4
  | .cval _ _ => 0x7#4
  | .unpack _ => 0x8#4
  | .pack _ _ => 0x9#4
  | .reservedA => 0xA#4
  | .reservedB => 0xB#4
  | .reservedC => 0xC#4
  | .reservedD => 0xD#4
  | .reservedE => 0xE#4
  | .reservedF => 0xF#4

/-- The field `a` that carries an instruction's operands, its unnamed bits zero (R63, R64). -/
def operandA : Instr → BitVec 72
  | .b32enc v => v.setWidth 72
  | .b32dec code => code
  | .uqenc lat _ => lat.setWidth 72
  | .uqdec latIndex _ => latIndex.setWidth 72
  | .mqenc lat _ => lat.setWidth 72
  | .mqdec latIndex _ => latIndex.setWidth 72
  | .cval lat _ => lat.setWidth 72
  | .unpack packed => packed.setWidth 72
  | .pack latIndex _ => latIndex.setWidth 72
  | .reserved0 => 0
  | .reservedA => 0
  | .reservedB => 0
  | .reservedC => 0
  | .reservedD => 0
  | .reservedE => 0
  | .reservedF => 0

/-- The field `b` that carries an instruction's operands, its unnamed bits zero (R63, R64). -/
def operandB : Instr → BitVec 64
  | .b32enc _ => 0
  | .b32dec _ => 0
  | .uqenc _ lon => lon
  | .uqdec _ lonIndex => lonIndex.setWidth 64
  | .mqenc _ lon => lon
  | .mqdec _ lonIndex => lonIndex.setWidth 64
  | .cval _ lon => lon
  | .unpack _ => 0
  | .pack _ lonIndex => lonIndex.setWidth 64
  | .reserved0 => 0
  | .reservedA => 0
  | .reservedB => 0
  | .reservedC => 0
  | .reservedD => 0
  | .reservedE => 0
  | .reservedF => 0

/-- The request a host issues for an instruction (R60, R63). -/
def encodeRequest (i : Instr) : Request := { op := opcode i, a := operandA i, b := operandB i }

/-- The 140-bit word of an instruction. -/
def encode (i : Instr) : BitVec 140 := wordOfRequest (encodeRequest i)

end Sys2Proof
end

