-- ==== Sys2Proof/Machine/Ports.lean ====
section
/-! DEFINITION. The signals of the block and what happens at a rising edge of `clk` (70_reset_and_hazards.md R230 to
R236). -/

namespace Sys2Proof.Machine

/-- The inputs at an edge after the last one the host has laid out: no reset, nothing new offered, no response taken,
and a request already offered still held, as R234 obliges (notes/assumptions/8.md). -/
def restPins (offer : Option Request) : Pins :=
  match offer with
  | none => { rst := false, reqValid := false, req := { op := 0, a := 0, b := 0 }, rspReady := false }
  | some q => { rst := false, reqValid := true, req := q, rspReady := false }

/-- The inputs sampled at the coming edge (R230). -/
def State.pins (s : State) : Pins := s.stimulus.headD (restPins s.offer)

/-- `rsp_valid` but for `rst`: a response in the slot whose `LATENCY` is over (R235). -/
def State.ready (s : State) : Bool :=
  match s.slot with
  | none => false
  | some sl => sl.wait == 0

/-- The output signals of R230. -/
structure PortsOut where
  /-- `req_ready`. -/
  reqReady : Bool
  /-- `rsp_valid`. -/
  rspValid : Bool
  /-- `rsp_status`. -/
  rspStatus : BitVec 3
  /-- `rsp_info`. -/
  rspInfo : BitVec 12
  /-- `rsp_x`. -/
  rspX : BitVec 72
  /-- `rsp_y`. -/
  rspY : BitVec 64
  deriving DecidableEq, Repr

/-- The 136 result bits of a response on the port; free in an error response (R65), and the same from the cycle
`rsp_valid` rises to the hand-over (R235). -/
def payload (tag : Nat) : Response → BitVec 136
  | .ok x y => x ++ y
  | .error _ _ => Config.errorPayload tag

/-- The 151-bit response word of a slot (R61). -/
def responseWord (sl : Slot) : BitVec 151 := statusCode sl.rsp ++ infoField sl.rsp ++ payload sl.tag sl.rsp

/-- The 151 bits on the response port in this cycle: `slot.rsp` while `rsp_valid = 1`, anything while it is 0 (R235). -/
def State.portWord (s : State) : BitVec 151 :=
  match s.slot with
  | none => Config.idleResponse s.draws
  | some sl => if sl.wait = 0 ∧ s.pins.rst = false then responseWord sl else Config.idleResponse s.draws

/-- The outputs of the block in the cycle before the coming edge (R230, R231, R233, R235). -/
def State.portsOut (s : State) : PortsOut where
  reqReady := !s.pins.rst && !s.full
  rspValid := !s.pins.rst && s.ready
  rspStatus := s.portWord.extractLsb' 148 3
  rspInfo := s.portWord.extractLsb' 136 12
  rspX := s.portWord.extractLsb' 64 72
  rspY := s.portWord.extractLsb' 0 64

/-- The host has broken R234: the request it offered at the last edge, not yet accepted, is no longer on the port. The
inputs do not matter while `rst = 1` (93_implementation_defined.md U12). -/
def State.offerBroken (s : State) : Bool :=
  match s.offer with
  | none => false
  | some q => !(s.pins.reqValid && s.pins.req == q)

/-- What a rising edge does. -/
inductive Edge where
  /-- `rst = 1` (R231). -/
  | reset
  /-- The host broke R234. -/
  | broken
  /-- A request is accepted (R233). -/
  | accept (q : Request)
  /-- The block is idle and nothing is offered. -/
  | idle
  /-- A response is handed over (R236). -/
  | handOver
  /-- The response is not out yet, or the host is not taking it (R235, R236). -/
  | hold
  deriving DecidableEq, Repr

/-- What the coming edge does (R231, R233, R234, R236). -/
def State.edge (s : State) : Edge :=
  if s.pins.rst then .reset
  else if s.offerBroken then .broken
  else if s.full then (if s.ready && s.pins.rspReady then .handOver else .hold)
  else if s.pins.reqValid then .accept s.pins.req
  else .idle

/-- The passing of an edge on everything but the slot: its inputs are used up, the model's counter moves on, and a
request that the full slot turned away stays offered (R234). A reset forgets it (R231, notes/assumptions/7.md). -/
def State.tick (s : State) : State where
  slot := s.slot
  stimulus := s.stimulus.drop 1
  offer := if !s.pins.rst && s.full && s.pins.reqValid then some s.pins.req else none
  draws := s.draws + 1

/-- `s` with one request offered to the idle block at the coming edge. The rest of that edge's inputs, and the edges
after it, stay as they are. -/
def State.withRequest (s : State) (q : Request) : State where
  slot := none
  stimulus := { s.pins with rst := false, reqValid := true, req := q } :: s.stimulus.drop 1
  offer := none
  draws := s.draws

end Sys2Proof.Machine
end

