-- ==== Sys2Proof/Machine/Step.lean ====
section
/-! DEFINITION. One step is one rising edge of `clk` (70_reset_and_hazards.md R230: "all state changes at its rising
edge"). -/

namespace Sys2Proof.Machine

/-- One rising edge: a reset (R231), the acceptance of a request (R233), the hand-over of a response (R236), or a
cycle in which the slot stays as it is but for `LATENCY` (R235). -/
def step (s : State) : Host.Outcome State Fault Refusal :=
  match s.edge with
  | .reset => .next s.tick.emptied
  | .broken => .refused .requestNotHeld
  | .accept q => exec (decode q) s.tick
  | .idle => .next s.tick
  | .handOver => .next s.tick.emptied
  | .hold => .next s.tick.countDown

/-- `s` with the request of an opcode-table number offered to the idle block at the coming edge (the block fetches no
instruction, R22: the request port is where its next one comes from). -/
def State.withFetchWord (s : State) (nbits w : Nat) : State :=
  s.withRequest (requestOfWord (BitVec.ofNat 140 ((BitVec.ofNat nbits w).toNat)))

end Sys2Proof.Machine
end

