-- ==== Sys2Proof/Machine/Respond.lean ====
section
/-! DEFINITION. The block as a pure function, the spec's `exec : Request -> Response` (00_scope.md R14), put together
from the responses that the meanings accept. -/

namespace Sys2Proof.Machine

/-- The response to an instruction (R14). -/
def respond : Instr → Response
  | .b32enc v => b32encResponse v
  | .b32dec code => b32decResponse code
  | .uqenc lat lon => uqencResponse params lat lon
  | .uqdec latIndex lonIndex => uqdecResponse params latIndex lonIndex
  | .mqenc lat lon => mqencResponse params lat lon
  | .mqdec latIndex lonIndex => mqdecResponse params latIndex lonIndex
  | .cval lat lon => cvalResponse lat lon
  | .unpack packed => unpackResponse packed
  | .pack latIndex lonIndex => packResponse latIndex lonIndex
  | .reserved0 => illegalResponse 0x0
  | .reservedA => illegalResponse 0xA
  | .reservedB => illegalResponse 0xB
  | .reservedC => illegalResponse 0xC
  | .reservedD => illegalResponse 0xD
  | .reservedE => illegalResponse 0xE
  | .reservedF => illegalResponse 0xF

/-- The response to a request (R14, R66). -/
def respondTo (q : Request) : Response := respond (decode q)

end Sys2Proof.Machine
end

