-- ==== Sys2Proof/Machine/Facade.lean ====
section
/-! DEFINITION. The host's pseudo-operations (30_encoding.md R72, 49_host_facade.md R181 to R185, R187, R190). They
are "not operations of the block and have no operation code": each is a sequence of block operations, and no step runs
one. -/

namespace Sys2Proof.Machine

/-- The strategy of a pseudo-operation, its suffix `.U` or `.M` (R181). -/
inductive Strategy where
  | uniform
  | meterBased
  deriving DecidableEq, Repr

/-- How a pseudo-operation fails (R190, R202). -/
inductive HostError where
  /-- Status code 2, raised by the host and never by the block (R202). -/
  | formatError
  /-- A block response whose status is not `OK`, reported as the host's own failure (R190). -/
  | block (e : ErrorStatus) (info : BitVec 12)
  deriving DecidableEq, Repr

/-- The encoding operation of a strategy (R181). -/
def strategyEncode (st : Strategy) (lat lon : F64) : Instr :=
  match st with
  | .uniform => .uqenc lat lon
  | .meterBased => .mqenc lat lon

/-- The decoding operation of a strategy (R181). -/
def strategyDecode (st : Strategy) (latIndex : U22) (lonIndex : U23) : Instr :=
  match st with
  | .uniform => .uqdec latIndex lonIndex
  | .meterBased => .mqdec latIndex lonIndex

/-- The host issues an operation and goes on with its two result fields; "everywhere else errors propagate to the
caller" (R190). -/
def issue {β : Type} (i : Instr) (k : BitVec 72 → BitVec 64 → Except HostError β) : Except HostError β :=
  match respond i with
  | .ok x y => k x y
  | .error e info => .error (.block e info)

/-- The character `-`. -/
def dash : Byte := 0x2D

/-- `formatForHumans`: nine characters to `XXX-XXX-XXX`; it fails on any other length (R182). -/
def formatForHumans (cs : List Byte) : Option (List Byte) :=
  if cs.length = 9 then some (cs.take 3 ++ dash :: ((cs.drop 3).take 3 ++ dash :: cs.drop 6)) else none

/-- `removeFormatting`: the nine characters of an 11-character string with dashes at positions 3 and 7; it fails on a
wrong length or malformed dash placement (R183). DESIGN CHOICE (notes/assumptions/20.md): what it does with a 9-character
string is not said (R183, N15), and the model takes 9 for a wrong length and fails. -/
def removeFormatting (cs : List Byte) : Option (List Byte) :=
  if cs.length = 11 ∧ cs[3]? = some dash ∧ cs[7]? = some dash then
    some (cs.take 3 ++ ((cs.drop 4).take 3 ++ cs.drop 8))
  else none

/-- The host's test in front of `B32DEC`: the nine characters to decode, or no valid length and dash pattern (R185). -/
def compactForm (s : List Byte) : Option (List Byte) :=
  match removeFormatting s with
  | some cs => some cs
  | none => if s.length = 9 then some s else none

/-- `ENCODE.U` and `ENCODE.M` (R184). -/
def pseudoEncode (st : Strategy) (lat lon : F64) (human : Bool) : Except HostError (List Byte) :=
  issue (strategyEncode st lat lon) fun x y =>
    issue (.pack (operandU22 x) (operandU23 y)) fun x _ =>
      issue (.b32enc (operandU45 x)) fun x _ =>
        .ok (if human then (formatForHumans (chars x)).getD [] else chars x)

/-- `DECODE.U` and `DECODE.M`: `FormatError` is checked before any character is looked at (R185). -/
def pseudoDecode (st : Strategy) (s : List Byte) : Except HostError (F64 × F64) :=
  match compactForm s with
  | none => .error .formatError
  | some cs =>
    issue (.b32dec (packChars cs)) fun x _ =>
      issue (.unpack (operandU45 x)) fun x y =>
        issue (strategyDecode st (operandU22 x) (operandU23 y)) fun x y =>
          .ok (operandF64 x, y)

/-- `isValidEncoding`: the length and dash test passes and `B32DEC` returns `OK`; a failure is folded into `false`
(R187). -/
def isValidEncoding (s : List Byte) : Bool :=
  match compactForm s with
  | none => false
  | some cs => statusCode (respond (.b32dec (packChars cs))) == 0

end Sys2Proof.Machine
end

