-- ==== Sys2Proof/Machine/Program.lean ====
section
/-! DEFINITION. The host's programs: the assembler lines of 30_encoding.md R71, as syntax trees, and what a host that
issues them sees. A program is the host's list of requests and no state of the block (10_state.md R22). -/

namespace Sys2Proof.Machine

/-- The nine mnemonics of R62. -/
inductive Mnemonic where
  | b32enc | b32dec | uqenc | uqdec | mqenc | mqdec | cval | unpack | pack
  deriving DecidableEq, Repr

/-- The result names of R63. -/
inductive ResultName where
  | code | v | latIndex | lonIndex | lat | lon | packed
  deriving DecidableEq, Repr

/-- An operand of a line (R71). -/
inductive Operand where
  /-- An unsigned integer literal. -/
  | nat (n : Nat)
  /-- A decimal number with a point: `digits / 10^places`, with its sign. -/
  | decimal (neg : Bool) (digits places : Nat)
  /-- `f64:0x` and 16 hex digits. -/
  | bits (f : F64)
  /-- A code in double quotes. -/
  | code (cs : List Byte)
  /-- `<label>.<result>` of an earlier line whose status was OK. -/
  | ref (label : String) (result : ResultName)
  deriving DecidableEq, Repr

/-- One line of a program (R71). -/
inductive Line where
  /-- `<label>: <MNEMONIC> <operand> [, <operand>]`. -/
  | op (label : String) (m : Mnemonic) (first : Operand) (second : Option Operand)
  /-- `.word 0x...`: a request word as it stands. -/
  | word (label : String) (w : BitVec 140)
  deriving DecidableEq, Repr

/-- The results of the earlier lines whose status was OK: label, operation code, and the fields `x` and `y`. -/
abbrev Results := List (String × BitVec 4 × BitVec 72 × BitVec 64)

/-- The operation code of a mnemonic (R62). -/
def mnemonicOp : Mnemonic → BitVec 4
  | .b32enc => 0x1
  | .b32dec => 0x2
  | .uqenc => 0x3
  | .uqdec => 0x4
  | .mqenc => 0x5
  | .mqdec => 0x6
  | .cval => 0x7
  | .unpack => 0x8
  | .pack => 0x9

/-- The named result of an operation, from its result fields; nothing where R63 gives the operation no such result. -/
def resultOf (op : BitVec 4) (x : BitVec 72) (y : BitVec 64) (n : ResultName) : Option (BitVec 72) :=
  match n with
  | .code => if op = 0x1 then some x else none
  | .v => if op = 0x2 then some x else none
  | .packed => if op = 0x9 then some x else none
  | .latIndex => if op = 0x3 ∨ op = 0x5 ∨ op = 0x8 then some x else none
  | .lonIndex => if op = 0x3 ∨ op = 0x5 ∨ op = 0x8 then some (y.setWidth 72) else none
  | .lat => if op = 0x4 ∨ op = 0x6 then some x else none
  | .lon => if op = 0x4 ∨ op = 0x6 then some (y.setWidth 72) else none

/-- The value of an operand in a field, or nothing where the line is no line of R71: a code literal has exactly nine
characters, a reference names an earlier OK line, and an integer fits the 72-bit field (notes/assumptions/12.md). A
decimal means the binary64 number nearest to it. Points R71 leaves open are DESIGN CHOICES of notes/assumptions/12.md: a
decimal exactly midway between two binary64 numbers means the one with the even fraction, `-0.0` is −0, and a decimal
beyond every finite datum is an infinity; of several OK lines with the label a reference names, the latest is meant; an
operand of any kind may stand in any field, and its bits are placed as they are. -/
def operandValue (env : Results) : Operand → Option (BitVec 72)
  | .nat n => if n >>> 72 = 0 then some (BitVec.ofNat 72 n) else none
  | .decimal neg digits places => some ((roundTo neg digits (10 ^ places)).setWidth 72)
  | .bits f => some (f.setWidth 72)
  | .code cs => if cs.length = 9 then some (packChars cs) else none
  | .ref label n => (env.find? fun e => e.1 == label).bind fun e => resultOf e.2.1 e.2.2.1 e.2.2.2 n

/-- The request of a line: "The first operand goes to field `a`, the second to field `b`" (R71). An operation has a
second operand exactly where R63 reads `b`. DESIGN CHOICE (notes/assumptions/12.md): of a second operand wider than
field `b`, R71 being silent, the low 64 bits are placed and the bits above are dropped. -/
def assemble (env : Results) : Line → Option Request
  | .word _ w => some (requestOfWord w)
  | .op _ m first second =>
    match operandValue env first, second.map (operandValue env), m with
    | some a, none, .b32enc | some a, none, .b32dec | some a, none, .unpack => some ⟨mnemonicOp m, a, 0⟩
    | some a, some (some b), .uqenc | some a, some (some b), .uqdec | some a, some (some b), .mqenc
    | some a, some (some b), .mqdec | some a, some (some b), .cval | some a, some (some b), .pack =>
      some ⟨mnemonicOp m, a, b.setWidth 64⟩
    | _, _, _ => none

/-- The label of a line. -/
def lineLabel : Line → String
  | .op l _ _ _ => l
  | .word l _ => l

/-- The responses a host gets that issues the lines in order, one transaction at a time, and stops at the first response
whose status is not OK, unless the program says that it continues past errors (R71). -/
def runLines (pastErrors : Bool) : Results → List Line → List Response
  | _, [] => []
  | env, l :: ls =>
    match assemble env l with
    | none => []
    | some q =>
      match respondTo q with
      | .ok x y => .ok x y :: runLines pastErrors ((lineLabel l, q.op, x, y) :: env) ls
      | .error e info => .error e info :: (if pastErrors then runLines pastErrors env ls else [])

end Sys2Proof.Machine
end

