-- ==== Sys2Proof/Safety.lean ====
section
/-! DEFINITION. What the outside sees of the block and what a lawful run is, in the terms statements use
(70_reset_and_hazards.md R237, R239; 10_state.md R28). -/

namespace Sys2Proof.Machine

/-- The response in the slot, which is all the state a transaction-level model has (R239). -/
def State.pending (s : State) : Option Response := s.slot.map Slot.rsp

/-- A transaction-level step (R239). -/
inductive Txn where
  | accept (q : Request)
  | deliver (r : Response)
  | reset
  deriving DecidableEq, Repr

/-- The effect of a transaction-level step on the slot, where it is enabled (R239). -/
def txnNext : Txn → Option Response → Option (Option Response)
  | .accept q, none => some (some (respondTo q))
  | .accept _, some _ => none
  | .deliver r, some r' => if r = r' then some none else none
  | .deliver _, none => none
  | .reset, _ => some none

/-- The transaction-level step that the coming edge of `s` makes, if it makes one. -/
def State.txn (s : State) : Option Txn :=
  match s.edge with
  | .reset => some .reset
  | .accept q => some (.accept q)
  | .handOver => s.pending.map .deliver
  | .broken => none
  | .idle => none
  | .hold => none

/-- The transaction-level steps of a run of `n` edges, in order; a run ends early where a step is refused. -/
def trace : Nat → State → List Txn
  | 0, _ => []
  | n + 1, s =>
    match step s with
    | .next t => s.txn.toList ++ trace n t
    | .fault _ => []
    | .refused _ => []

/-- "the sequence of (request, response) pairs, in order, with each response equal to `exec` of its request, cut short
only by resets" (R239), from a slot that holds the given response: every accepted request is followed by the delivery of
its own response or by a reset, and nothing else is delivered. -/
def Lawful : Option Response → List Txn → Prop
  | _, [] => True
  | r, e :: es => ∃ r', txnNext e r = some r' ∧ Lawful r' es

/-- The invariant of the state: the slot holds the response of some instruction, with no more of its `LATENCY` left than
it had (R28, R235), under a free-value index already drawn. -/
structure State.Inv (s : State) : Prop where
  /-- `slot.rsp` is `exec` of a request. -/
  rsp : ∀ sl, s.slot = some sl → ∃ i, sl.rsp = respond i
  /-- What is left of `LATENCY`. -/
  wait : ∀ sl, s.slot = some sl → sl.wait ≤ Config.latency sl.tag
  /-- The index of a transaction's free values has been drawn. -/
  tag : ∀ sl, s.slot = some sl → sl.tag ≤ s.draws

/-- CP3 of R13: a cosine within 2^−50 of the true one on `|val(a)| <= 89`. "only the precision claims need it, no rule
does", so the block's cosine is not held to it; a claim that needs it takes it as a hypothesis (notes/assumptions/1.md). -/
def AccurateCosine (f : F64 → F64) : Prop :=
  ∀ a, isFinite a = true → |val a| ≤ 89 →
    |((val (f a) : ℚ) : ℝ) - Real.cos (Real.pi * ((val a : ℚ) : ℝ) / 180)| ≤ 1 / 2 ^ 50

/-- No step of the first `n` is refused or faults: the host keeps R234, which is what a safe run is. -/
def SafeRun (n : Nat) (s : State) : Prop := ∃ t, Host.Core.run Sys2Proof.core n s = .next t

end Sys2Proof.Machine
end

