-- ==== Sys2Proof/Certificates/Slice0/Obligations.lean ====
section
/-! DEFINITION. The statements about the model. A statement rests on no value that a log entry chose unless its docstring
says so: what depends on the free values of Config (`latency`, `cosdegRaw`, `errorPayload`, …) holds for every one of
them. -/

namespace Sys2Proof.Machine

/-- `exec i s` answers with the next state in which the idle block has taken `r` into its slot and nothing else has
changed (10_state.md R28). How many cycles of `LATENCY` the transaction takes, and the index of its free values, are left
open: they are the model's own (notes/assumptions/2.md, notes/assumptions/3.md). -/
def Answers (i : Instr) (s : State) (r : Response) : Prop :=
  ∃ wait tag, exec i s = .next { s with slot := some { rsp := r, wait := wait, tag := tag } }

/-- A coordinate axis value inside closed bounds: `[-90, 90]` for a latitude, `[-180, 180]` for a longitude. -/
abbrev Within (bound : ℚ) (a : F64) : Prop := isFinite a = true ∧ -bound ≤ val a ∧ val a ≤ bound

/-- `info` of a `RangeError`: bit 0 for a latitude outside its bounds, bit 1 for a longitude (R161, R201). -/
def outOfRangeInfo (lat lon : F64) : BitVec 12 :=
  (if Within 90 lat then 0 else 1) + (if Within 180 lon then 0 else 2)

/-- `fclamp(a, lo, hi)` in the words of R11. -/
def fclamp (a lo hi : F64) : F64 := if flt a lo then lo else if fgt a hi then hi else a

/-- The bits of field `a` that R63 names for an operation code. -/
def namedA (op : BitVec 4) : BitVec 72 :=
  if op = 0x1 ∨ op = 0x8 then 0x1FFFFFFFFFFF
  else if op = 0x2 then 0xFFFFFFFFFFFFFFFFFF
  else if op = 0x3 ∨ op = 0x5 ∨ op = 0x7 then 0xFFFFFFFFFFFFFFFF
  else if op = 0x4 ∨ op = 0x6 ∨ op = 0x9 then 0x3FFFFF
  else 0

/-- The bits of field `b` that R63 names for an operation code. -/
def namedB (op : BitVec 4) : BitVec 64 :=
  if op = 0x3 ∨ op = 0x5 ∨ op = 0x7 then 0xFFFFFFFFFFFFFFFF
  else if op = 0x4 ∨ op = 0x6 ∨ op = 0x9 then 0x7FFFFF
  else 0

/-- The bits of result `x` that R63 names for an operation code. -/
def namedX (op : BitVec 4) : BitVec 72 :=
  if op = 0x1 then 0xFFFFFFFFFFFFFFFFFF
  else if op = 0x2 ∨ op = 0x9 then 0x1FFFFFFFFFFF
  else if op = 0x3 ∨ op = 0x5 ∨ op = 0x8 then 0x3FFFFF
  else if op = 0x4 ∨ op = 0x6 then 0xFFFFFFFFFFFFFFFF
  else 0

/-- The bits of result `y` that R63 names for an operation code. -/
def namedY (op : BitVec 4) : BitVec 64 :=
  if op = 0x3 ∨ op = 0x5 ∨ op = 0x8 then 0x7FFFFF
  else if op = 0x4 ∨ op = 0x6 then 0xFFFFFFFFFFFFFFFF
  else 0

/-- A datum is the one nearest to a rational, and of two equally near ones the one with an even fraction. -/
def NearestDatum (v : ℚ) (r : F64) : Prop :=
  ∀ c, isFinite c = true → |val r - v| ≤ |val c - v|
    ∧ (|val r - v| = |val c - v| → val c ≠ val r → fracBits r % 2 = 0)

/-- The rounding of an exact result to nearest, ties to even: a finite nearest datum below half a unit in the last place
above the largest finite datum, `2^1024 − 2^971`, and the infinity of the result's sign from there on. -/
def RoundsTo (v : ℚ) (r : F64) : Prop :=
  (|v| < 2 ^ 1024 - 2 ^ 970 → isFinite r = true ∧ NearestDatum v r)
  ∧ (2 ^ 1024 - 2 ^ 970 ≤ |v| → r = infinity (decide (v < 0)))

/-- A finite datum in a closed interval. -/
abbrev FiniteIn (lo hi : ℚ) (a : F64) : Prop := isFinite a = true ∧ lo ≤ val a ∧ val a ≤ hi

/-- R234 over edges at which nothing is accepted: an offered request, `offer` being the one offered at the edge before,
stays on the port unchanged. A request may be raised at any of these edges, or none at all. -/
def HoldsOffer : Option Request → List Pins → Prop
  | _, [] => True
  | offer, p :: ps => (∀ q, offer = some q → p.reqValid = true ∧ p.req = q)
      ∧ HoldsOffer (if p.reqValid then some p.req else none) ps

/-- Every character of a code replaced. -/
def mapCode (f : Byte → Byte) (code : Code9) : Code9 := packChars ((chars code).map f)

/-- ASCII lower case. -/
def lower (c : Byte) : Byte := if 0x41 ≤ c ∧ c ≤ 0x5A then c + 0x20 else c

end Sys2Proof.Machine

open Sys2Proof Sys2Proof.Machine

/-! ### Encoding -/

/-- The word of an instruction decodes to that instruction, for every operand (R60, R62, R63). -/
def Obligations.DecodeInvertsEncode : Prop := ∀ i : Instr, decode (requestOfWord (encode i)) = i

/-- A 140-bit word is the encoding of the instruction it decodes to exactly when it drives every unnamed operand bit
to zero (R60, R63, R64). -/
def Obligations.EncodeInvertsDecodeExactlyOnWellFormedWords : Prop :=
  ∀ w : BitVec 140, encode (decode (requestOfWord w)) = w ↔ (requestOfWord w).wf = true

/-- R64: "Operand bits that rule R63 does not name are ignored: they do not affect the status or the results, whatever
they hold." Two requests that agree on their operation code and on the named bits do the same to every state. -/
def Obligations.UnnamedOperandBitsAreIgnored : Prop :=
  ∀ (q q' : Request) (s : State), q.op = q'.op → q.a &&& namedA q.op = q'.a &&& namedA q.op →
    q.b &&& namedB q.op = q'.b &&& namedB q.op → exec (decode q) s = exec (decode q') s

/-- The request words of the programs P1 to P5 of 95_test_vectors.md decode to the instructions they stand for. -/
def Obligations.ProgramWordsDecode : Prop :=
  decode (requestOfWord 0x30000000000000000000000000000000000) = .uqenc 0 0
  ∧ decode (requestOfWord 0x90000000000002000000000000000400000) = .pack 2097152 4194304
  ∧ decode (requestOfWord 0x10000001000004000000000000000000000) = .b32enc 0x100000400000
  ∧ decode (requestOfWord 0x267303030377A7A7A7A0000000000000000) = .b32dec 0x67303030377A7A7A7A
  ∧ decode (requestOfWord 0x80000001000007FFFFF0000000000000000) = .unpack 0x1000007FFFFF
  ∧ decode (requestOfWord 0x400000000000020000000000000007FFFFF) = .uqdec 2097152 8388607
  ∧ decode (requestOfWord 0x50040445B3D07C84B5EC05280624DD2F1AA) = .mqenc 0x40445B3D07C84B5E 0xC05280624DD2F1AA
  ∧ decode (requestOfWord 0x60000000000002E79C4000000000025AFCF) = .mqdec 3045828 2469839
  ∧ decode (requestOfWord 0x7004056C000000000000000000000000000) = .cval 0x4056C00000000000 0
  ∧ decode (requestOfWord 0xF123456789ABCDEF012FEDCBA9876543210) = .reservedF

/-- The decoder refuses exactly the numbers that are longer than a request (R60, R70). -/
def Obligations.DecoderRefusesOnlyLongNumbers : Prop :=
  ∀ nbits w : Nat, decodeTableWord nbits w = none ↔ 2 ^ 140 ≤ w % 2 ^ nbits

/-! ### The step -/

/-- A rising edge at which an idle block is offered a request runs the decoded instruction (R233). Around it, the edge
uses up one entry of the stimulus and one free-value index. -/
def Obligations.StepRunsTheDecodedRequest : Prop :=
  ∀ s : State, s.slot = none → s.offerBroken = false → s.pins.rst = false → s.pins.reqValid = true →
    step s = exec (decode s.pins.req) s.tick
    ∧ s.tick = { slot := none, stimulus := s.stimulus.drop 1, offer := none, draws := s.draws + 1 }

/-- A request word placed at the port is the instruction that the very next step runs. -/
def Obligations.FetchWordIsRunByTheNextStep : Prop :=
  ∀ (s : State) (nbits w : Nat) (i : Instr), decodeTableWord nbits w = some i →
    step (s.withFetchWord nbits w) = exec i (s.withFetchWord nbits w).tick

/-- Every instruction, reserved codes included, completes at every idle block: the slot holds the response of the
instruction and nothing else has changed (R14, R28). -/
def Obligations.EveryInstructionCompletesAtAnIdleBlock : Prop :=
  ∀ (i : Instr) (s : State), s.slot = none → Answers i s (respond i)

/-- A request at a full slot is not accepted and changes nothing (R233, R236; trace P6, step 2): this is where an
instruction waits, not where it completes. -/
def Obligations.FullSlotTurnsEveryRequestAway : Prop :=
  ∀ (i : Instr) (s : State), s.slot ≠ none → exec i s = .next s

/-! ### Base32 -/

/-- R41: "`ALPHA[i]`, for `i` in 0 to 31, is the 8-bit ASCII code of the `i`-th character". -/
def Obligations.AlphabetIsTheSourceString : Prop :=
  (List.range 32).map (fun i => (alpha (BitVec.ofNat 5 i)).toNat)
    = "0123456789ABCDEFGHJKMNPQRSTVWXYZ".toList.map Char.toNat

/-- R42: "`IDX` is defined (not `none`) on exactly these 54 bytes": the eleven rows of R42's table, read at the byte
itself, and `none` on every other byte. -/
def Obligations.InverseTableIsAsWrittenOut : Prop :=
  ∀ c : Byte, (idx c).map BitVec.toNat =
    let n := c.toNat
    if 0x30 ≤ n ∧ n ≤ 0x39 then some (n - 0x30)
    else if 0x41 ≤ n ∧ n ≤ 0x48 then some (n - 0x37)
    else if 0x4A ≤ n ∧ n ≤ 0x4B then some (18 + (n - 0x4A))
    else if 0x4D ≤ n ∧ n ≤ 0x4E then some (20 + (n - 0x4D))
    else if 0x50 ≤ n ∧ n ≤ 0x54 then some (n - 0x3A)
    else if 0x56 ≤ n ∧ n ≤ 0x5A then some (n - 0x3B)
    else if 0x61 ≤ n ∧ n ≤ 0x68 then some (10 + (n - 0x61))
    else if 0x6A ≤ n ∧ n ≤ 0x6B then some (18 + (n - 0x6A))
    else if 0x6D ≤ n ∧ n ≤ 0x6E then some (20 + (n - 0x6D))
    else if 0x70 ≤ n ∧ n ≤ 0x74 then some (22 + (n - 0x70))
    else if 0x76 ≤ n ∧ n ≤ 0x7A then some (27 + (n - 0x76))
    else none

/-- R91: `B32ENC` on any fields `a` and `b` completes with nine symbols in `x`, `y = 0` and status `OK`: "extract the
low 5 bits, map to a symbol, shift right 5, repeat 9 times, then reverse", so that symbol `j` counted from the right
is that of `a[44:0]` shifted right by `5 j`. -/
def Obligations.B32encAnswersItsNineSymbols : Prop :=
  ∀ (a : BitVec 72) (b : BitVec 64) (s : State), s.slot = none →
    decode ⟨0x1, a, b⟩ = .b32enc (a.extractLsb' 0 45)
    ∧ ∃ x, Answers (.b32enc (a.extractLsb' 0 45)) s (.ok x 0)
      ∧ ∀ j < 9, charAt x (8 - j) = alpha ((a.extractLsb' 0 45 >>> (5 * j)).setWidth 5)

/-- R94: `B32DEC` on any fields `a` and `b` completes. Where all nine characters of `a` have a symbol, with the value
that `value = value*32 + symbolIndex` builds from left to right, `y = 0`; and where not, with `InvalidCharacter`
naming the leftmost character that has none, as received, and its position. -/
def Obligations.B32decAnswersItsValueOrTheLeftmostBadCharacter : Prop :=
  ∀ (a : BitVec 72) (b : BitVec 64) (s : State), s.slot = none →
    decode ⟨0x2, a, b⟩ = .b32dec a
    ∧ ((∀ k < 9, idx (charAt a k) ≠ none) →
        ∃ v : U45, Answers (.b32dec a) s (.ok (v.setWidth 72) 0)
          ∧ v.toNat = (List.range 9).foldl (fun value k => value * 32 + ((idx (charAt a k)).getD 0).toNat) 0)
    ∧ ∀ k < 9, (∀ j < k, idx (charAt a j) ≠ none) → idx (charAt a k) = none →
        Answers (.b32dec a) s (.error .invalidCharacter (charAt a k ++ BitVec.ofNat 4 k))

/-- 40_base32.md, "Laws of the pair" (R96), both directions: decoding the code of a value gives the value, which is
the source's invariant; and the code of a decoded value is the code decoded, in upper case, which the spec marks as
its own inference. -/
def Obligations.Base32IsABijection : Prop :=
  (∀ v : U45, ∃ x, respond (.b32enc v) = .ok x 0 ∧ respond (.b32dec x) = .ok (v.setWidth 72) 0)
  ∧ ∀ code : Code9, (∀ k < 9, idx (charAt code k) ≠ none) →
      ∃ v : U45, respond (.b32dec code) = .ok (v.setWidth 72) 0 ∧ respond (.b32enc v) = .ok (mapCode upper code) 0

/-- 40_base32.md, "Laws of the pair" (R97): the case of letters changes neither the status nor the value, and of an
`InvalidCharacter` at most the byte reported, never the position. (The last part is the spec's own inference.) -/
def Obligations.DecodingIgnoresLetterCase : Prop :=
  ∀ (code : Code9) (f : Byte → Byte), f = upper ∨ f = lower →
    statusCode (respond (.b32dec (mapCode f code))) = statusCode (respond (.b32dec code))
    ∧ (statusCode (respond (.b32dec code)) = 0 → respond (.b32dec (mapCode f code)) = respond (.b32dec code))
    ∧ (infoField (respond (.b32dec (mapCode f code)))).extractLsb' 0 4
        = (infoField (respond (.b32dec code))).extractLsb' 0 4

/-! ### The validator -/

/-- R160, R162, R163: an axis is accepted exactly when it is a number in the closed interval, so every NaN and every
infinity is rejected. -/
def Obligations.RangeCheckAcceptsExactlyTheClosedIntervals : Prop :=
  ∀ a : F64, (latBad a = false ↔ Within 90 a) ∧ (lonBad a = false ↔ Within 180 a)

/-- R161: `CVAL` on any fields completes with no result where both axes are in bounds, and answers `RangeError` with
one `info` bit for each bad axis where not. -/
def Obligations.CvalAnswersTheRangeCheck : Prop :=
  ∀ (a : BitVec 72) (b : BitVec 64) (s : State), s.slot = none →
    decode ⟨0x7, a, b⟩ = .cval (a.extractLsb' 0 64) b
    ∧ (Within 90 (a.extractLsb' 0 64) → Within 180 b → Answers (.cval (a.extractLsb' 0 64) b) s (.ok 0 0))
    ∧ (¬ (Within 90 (a.extractLsb' 0 64) ∧ Within 180 b) →
        Answers (.cval (a.extractLsb' 0 64) b) s (.error .rangeError (outOfRangeInfo (a.extractLsb' 0 64) b)))

/-- 43_coordinate_validator.md, the spec's own inference in R161: "`CVAL` returns `OK` exactly when `UQENC` and
`MQENC` on the same operands do not raise `RangeError`"; and where it does not, all three give the same response. -/
def Obligations.QuantizersRejectExactlyWhatCvalRejects : Prop :=
  ∀ lat lon : F64,
    (statusCode (respond (.cval lat lon)) = 0 →
      statusCode (respond (.uqenc lat lon)) = 0 ∧ statusCode (respond (.mqenc lat lon)) = 0)
    ∧ (statusCode (respond (.cval lat lon)) ≠ 0 →
      respond (.uqenc lat lon) = respond (.cval lat lon) ∧ respond (.mqenc lat lon) = respond (.cval lat lon))

/-! ### The uniform quantizer -/

/-- R111: `UQENC` on any fields completes with the two clamped floors where the pair is in range; where it is not it
answers `RangeError` with one `info` bit for each bad axis, whatever arithmetic would give. -/
def Obligations.UqencAnswersTheClampedFloors : Prop :=
  ∀ (a : BitVec 72) (lon : F64) (s : State), s.slot = none →
    decode ⟨0x3, a, lon⟩ = .uqenc (a.extractLsb' 0 64) lon
    ∧ (Within 90 (a.extractLsb' 0 64) → Within 180 lon →
      ∃ (i : U22) (j : U23), Answers (.uqenc (a.extractLsb' 0 64) lon) s (.ok (i.setWidth 72) (j.setWidth 64))
        ∧ i.toNat = min (f2n (ffloor (fmul (fdiv (fadd (a.extractLsb' 0 64) lit90) lit180) litLatCells))) 4194303
        ∧ j.toNat = min (f2n (ffloor (fmul (fdiv (fadd lon lit180) lit360) litLonCells))) 8388607)
    ∧ (¬ (Within 90 (a.extractLsb' 0 64) ∧ Within 180 lon) →
      Answers (.uqenc (a.extractLsb' 0 64) lon) s (.error .rangeError (outOfRangeInfo (a.extractLsb' 0 64) lon)))

/-- 41_uniform_quantizer.md and 42_meter_based_quantizer.md, the spec's own inferences R112 and R137: for an accepted
pair every intermediate of `UQENC` and of `MQENC` is finite and inside its bounds, the metres per degree and the cell
width of a non-polar band are not 0, whatever the cosine, and the arguments of the floors lie in `[0, 2^22]` and
`[0, 2^23]`: no NaN, no negative number, no overflow and no division by zero is behind an index. -/
def Obligations.QuantizerIntermediatesStayInBounds : Prop :=
  ∀ lat lon : F64, Within 90 lat → Within 180 lon →
    let t1 := fadd lat lit90
    let t2 := fdiv t1 lit180
    let u1 := fadd lon lit180
    let u2 := fdiv u1 lit360
    let latMeters := fmul t1 lit111320
    FiniteIn 0 180 t1 ∧ FiniteIn 0 1 t2 ∧ FiniteIn 0 4194304 (fmul t2 litLatCells)
    ∧ FiniteIn 0 360 u1 ∧ FiniteIn 0 1 u2 ∧ FiniteIn 0 8388608 (fmul u2 litLonCells)
    ∧ FiniteIn 0 20037600 latMeters ∧ FiniteIn 0 4194304 (fdiv latMeters 0x40131BFE00000000)
    ∧ ∀ i : U22, polar params i.toNat = false →
        let m := fmul lit111320 (fabs (cosdeg (bandCenter params i.toNat)))
        let circle := fmul lit360 m
        let lonCell := fdiv circle litLonCells
        let lonMeters := fmul u1 m
        FiniteIn (869 + 11 / 16) 111320 m ∧ isFinite circle = true
        ∧ isFinite lonCell = true ∧ val lonCell = val circle / 8388608 ∧ 0 < val lonCell
        ∧ FiniteIn 0 (val circle) lonMeters ∧ FiniteIn 0 8388608 (fdiv lonMeters lonCell)

/-- 41_uniform_quantizer.md, the spec's own inference R113: in real numbers `UQENC` gives the half-open cell that
contains the point, the top cell closed. -/
def Obligations.UqencCellContainsThePointInRealNumbers : Prop :=
  ∀ lat lon : F64, Within 90 lat → Within 180 lon →
    ∃ (i : U22) (j : U23), uqencResponse exactParams lat lon = .ok (i.setWidth 72) (j.setWidth 64)
      ∧ (-90 + i.toNat * (45 / 2 ^ 20) ≤ val lat
          ∧ (val lat < -90 + (i.toNat + 1) * (45 / 2 ^ 20) ∨ (i.toNat = 4194303 ∧ val lat = 90)))
      ∧ (-180 + j.toNat * (45 / 2 ^ 20) ≤ val lon
          ∧ (val lon < -180 + (j.toNat + 1) * (45 / 2 ^ 20) ∨ (j.toNat = 8388607 ∧ val lon = 180)))

/-- 41_uniform_quantizer.md and 42_meter_based_quantizer.md, "Boundary behaviour" (R114, R139; for `MQENC` the spec's
own inference): the four corners give the corner cells under both strategies, and (±91, 0) and (0, ±181) fail with
`RangeError` under both. -/
def Obligations.CornersSucceedAndBeyondFails : Prop :=
  (∀ e : F64 → F64 → Instr, e = Instr.uqenc ∨ e = Instr.mqenc →
    respond (e lit90 lit180) = .ok 4194303 8388607 ∧ respond (e lit90 litNeg180) = .ok 4194303 0
    ∧ respond (e litNeg90 lit180) = .ok 0 8388607 ∧ respond (e litNeg90 litNeg180) = .ok 0 0
    ∧ respond (e 0x4056C00000000000 0) = .error .rangeError 1
    ∧ respond (e 0xC056C00000000000 0) = .error .rangeError 1
    ∧ respond (e 0 0x4066A00000000000) = .error .rangeError 2
    ∧ respond (e 0 0xC066A00000000000) = .error .rangeError 2)

/-- R115: `UQDEC` on any fields completes with the clamped centres of the cell, in the operation order of the rule. -/
def Obligations.UqdecAnswersTheClampedCentres : Prop :=
  ∀ (a : BitVec 72) (b : BitVec 64) (s : State), s.slot = none →
    decode ⟨0x4, a, b⟩ = .uqdec (a.extractLsb' 0 22) (b.extractLsb' 0 23)
    ∧ let p4 := fadd litNeg90 (fmul (fdiv (fadd (n2f (a.toNat % 2 ^ 22)) litHalf) litLatCells) lit180)
      let q4 := fadd litNeg180 (fmul (fdiv (fadd (n2f (b.toNat % 2 ^ 23)) litHalf) litLonCells) lit360)
      Answers (.uqdec (a.extractLsb' 0 22) (b.extractLsb' 0 23)) s
        (.ok ((fclamp p4 litNeg90 lit90).setWidth 72) (fclamp q4 litNeg180 lit180))

/-- 41_uniform_quantizer.md, the spec's own inference R116: `UQDEC` completes with exactly the centre of the cell,
finite and inside the bounds, so its clamps never act. -/
def Obligations.UqdecGivesTheExactCentre : Prop :=
  ∀ (i : U22) (j : U23), ∃ lat lon : F64, respond (.uqdec i j) = .ok (lat.setWidth 72) lon
    ∧ isFinite lat = true ∧ isFinite lon = true
    ∧ val lat = -90 + (2 * i.toNat + 1) * 45 / 2 ^ 21 ∧ val lon = -180 + (2 * j.toNat + 1) * 45 / 2 ^ 21

/-- 41_uniform_quantizer.md, the spec's own inference R116: "`UQDEC` is exact under the default `NUMERICS`, and under
exact arithmetic gives the same bits". -/
def Obligations.UqdecIsTheSameInExactArithmetic : Prop :=
  ∀ (i : U22) (j : U23), uqdecResponse params i j = uqdecResponse exactParams i j

/-- 41_uniform_quantizer.md, the spec's own inference R117 (a): re-encoding a centre returns its cell. -/
def Obligations.UniformRoundTripReturnsTheCell : Prop :=
  ∀ (i : U22) (j : U23), ∃ lat lon : F64, respond (.uqdec i j) = .ok (lat.setWidth 72) lon
    ∧ respond (.uqenc lat lon) = .ok (i.setWidth 72) (j.setWidth 64)

/-! ### The meter-based quantizer -/

/-- CP2 of R13, for every cosine the block can be built with: finite, `2^−7 <= |val| <= 1` on `|val(a)| <= 89`. -/
def Obligations.CosineIsBoundedOffThePoles : Prop :=
  ∀ a : F64, isFinite a = true → |val a| ≤ 89 →
    isFinite (cosdeg a) = true ∧ 1 / 2 ^ 7 ≤ |val (cosdeg a)| ∧ |val (cosdeg a)| ≤ 1

/-- 42_meter_based_quantizer.md, the spec's own inference R133: `BC` is exact. -/
def Obligations.BandCentreIsExact : Prop :=
  ∀ i : U22, isFinite (bandCenter params i.toNat) = true
    ∧ val (bandCenter params i.toNat) = -90 + (2 * i.toNat + 1) * 45 / 2 ^ 21

/-- 42_meter_based_quantizer.md, R134 and the spec's own inference in it: the strict test `|bandCenter| > 89` is a
fixed partition of the latitude cells, 23302 at either end; no band centre is at 89, and the cosine is only asked
below it. -/
def Obligations.PolarCellsAreTheTwoCaps : Prop :=
  ∀ i : U22, polar params i.toNat = fgt (fabs (bandCenter params i.toNat)) lit89
    ∧ (polar params i.toNat = true ↔ i.toNat ≤ 23301 ∨ 4171002 ≤ i.toNat)
    ∧ (polar params i.toNat = true ↔ 89 < |val (bandCenter params i.toNat)|)
    ∧ (polar params i.toNat = false ↔ |val (bandCenter params i.toNat)| < 89)

/-- R135: `MQENC` on any fields completes, where the pair is in range, with the clamped floors of the metres from the
south pole and, by the hard branch on the clamped latIndex, of the plain fraction of 360° or of the metres from −180°;
where it is not, it answers `RangeError` with one `info` bit for each bad axis. -/
def Obligations.MqencAnswersTheClampedFloors : Prop :=
  ∀ (a : BitVec 72) (lon : F64) (s : State), s.slot = none →
    decode ⟨0x5, a, lon⟩ = .mqenc (a.extractLsb' 0 64) lon
    ∧ (Within 90 (a.extractLsb' 0 64) → Within 180 lon →
      ∃ (i : U22) (j : U23), Answers (.mqenc (a.extractLsb' 0 64) lon) s (.ok (i.setWidth 72) (j.setWidth 64))
        ∧ i.toNat = min (f2n (ffloor (fdiv (fmul (fadd (a.extractLsb' 0 64) lit90) lit111320)
            (0x40131BFE00000000 : F64)))) 4194303
        ∧ let bc := fadd litNeg90 (fdiv (fmul (fadd (n2f i.toNat) litHalf) 0x40131BFE00000000) lit111320)
          let m := fmul lit111320 (fabs (cosdeg bc))
          j.toNat =
            if fgt (fabs bc) lit89 then min (f2n (ffloor (fmul (fdiv (fadd lon lit180) lit360) litLonCells))) 8388607
            else min (f2n (ffloor (fdiv (fmul (fadd lon lit180) m) (fdiv (fmul lit360 m) litLonCells)))) 8388607)
    ∧ (¬ (Within 90 (a.extractLsb' 0 64) ∧ Within 180 lon) →
      Answers (.mqenc (a.extractLsb' 0 64) lon) s (.error .rangeError (outOfRangeInfo (a.extractLsb' 0 64) lon)))

/-- 42_meter_based_quantizer.md, the spec's own inference R137: at the two ends of the longitude range the index does
not depend on the cosine: `lon = 180` gives 8388607 and `lon = −180` gives 0, for every accepted latitude. -/
def Obligations.MqencLongitudeEndsAreIndependentOfTheCosine : Prop :=
  ∀ lat : F64, Within 90 lat → ∃ i : U22,
    respond (.mqenc lat lit180) = .ok (i.setWidth 72) 8388607 ∧ respond (.mqenc lat litNeg180) = .ok (i.setWidth 72) 0

/-- 42_meter_based_quantizer.md, the spec's own inference R138: "in real numbers and under decision D11, `MQENC`
selects the same cell as `UQENC` for every input, in both branches", whatever the cosine. -/
def Obligations.MqencIsUqencInRealNumbers : Prop :=
  ∀ lat lon : F64, mqencResponse exactParams lat lon = uqencResponse exactParams lat lon

/-- R140: `MQDEC` on any fields completes with the band centre and the inverse of the encode steps at the cell centre.
-/
def Obligations.MqdecAnswersTheInvertedSteps : Prop :=
  ∀ (a : BitVec 72) (b : BitVec 64) (s : State), s.slot = none →
    decode ⟨0x6, a, b⟩ = .mqdec (a.extractLsb' 0 22) (b.extractLsb' 0 23)
    ∧ let i := a.toNat % 2 ^ 22
      let j := b.toNat % 2 ^ 23
      let bc := fadd litNeg90 (fdiv (fmul (fadd (n2f i) litHalf) 0x40131BFE00000000) lit111320)
      let m := fmul lit111320 (fabs (cosdeg bc))
      let q4 :=
        if fgt (fabs bc) lit89 then fadd litNeg180 (fmul (fdiv (fadd (n2f j) litHalf) litLonCells) lit360)
        else fadd litNeg180 (fdiv (fmul (fadd (n2f j) litHalf) (fdiv (fmul lit360 m) litLonCells)) m)
      Answers (.mqdec (a.extractLsb' 0 22) (b.extractLsb' 0 23)) s
        (.ok ((fclamp bc litNeg90 lit90).setWidth 72) (fclamp q4 litNeg180 lit180))

/-- 42_meter_based_quantizer.md, the spec's own inference R141 (a), (b): the latitude of `MQDEC` has the bits of that
of `UQDEC`, and in a polar cell so has the longitude. -/
def Obligations.MqdecSharesTheUniformBits : Prop :=
  ∀ (i : U22) (j : U23), ∃ lat lon lon' : F64, respond (.mqdec i j) = .ok (lat.setWidth 72) lon
    ∧ respond (.uqdec i j) = .ok (lat.setWidth 72) lon'
    ∧ (i.toNat ≤ 23301 ∨ 4171002 ≤ i.toNat → lon = lon')

/-- 42_meter_based_quantizer.md, the spec's own inference R141 (c), (e): the longitude of `MQDEC` is finite and
differs from the cell centre by less than 2^−42 degrees, whatever the cosine. -/
def Obligations.MqdecLongitudeIsNearTheCentre : Prop :=
  ∀ (i : U22) (j : U23), ∃ lat lon : F64, respond (.mqdec i j) = .ok (lat.setWidth 72) lon ∧ isFinite lon = true
    ∧ |val lon - (-180 + (2 * j.toNat + 1) * 45 / 2 ^ 21)| < 1 / 2 ^ 42

/-- 42_meter_based_quantizer.md, the spec's own inference R142 (a): `MQENC(MQDEC(i, j)) = (i, j)` with status `OK` for
every cell, whatever the cosine. -/
def Obligations.MeterBasedRoundTripReturnsTheCell : Prop :=
  ∀ (i : U22) (j : U23), ∃ lat lon : F64, respond (.mqdec i j) = .ok (lat.setWidth 72) lon
    ∧ respond (.mqenc lat lon) = .ok (i.setWidth 72) (j.setWidth 64)

/-! ### Packed cells and reserved codes -/

/-- R171: `UNPACK` on any fields completes with `latIndex = packed >> 23` and `lonIndex = packed & (2^23 − 1)`. -/
def Obligations.UnpackAnswersTheTwoIndices : Prop :=
  ∀ (a : BitVec 72) (b : BitVec 64) (s : State), s.slot = none →
    decode ⟨0x8, a, b⟩ = .unpack (a.extractLsb' 0 45)
    ∧ ∃ x y, Answers (.unpack (a.extractLsb' 0 45)) s (.ok x y)
      ∧ x.toNat = a.toNat % 2 ^ 45 / 2 ^ 23 ∧ y.toNat = a.toNat % 2 ^ 23

/-- R172: `PACK` on any fields completes with `(latIndex << 23) | lonIndex`, and an oversized index cannot spill. -/
def Obligations.PackAnswersThePackedValue : Prop :=
  ∀ (a : BitVec 72) (b : BitVec 64) (s : State), s.slot = none →
    decode ⟨0x9, a, b⟩ = .pack (a.extractLsb' 0 22) (b.extractLsb' 0 23)
    ∧ ∃ x, Answers (.pack (a.extractLsb' 0 22) (b.extractLsb' 0 23)) s (.ok x 0)
      ∧ x.toNat = a.toNat % 2 ^ 22 * 2 ^ 23 + b.toNat % 2 ^ 23

/-- 44_packed_cell.md, "Laws of the pair" (R173, the spec's own inference): `UNPACK(PACK(i, j)) = (i, j)` and
`PACK(UNPACK(p)) = p`. -/
def Obligations.PackAndUnpackAreInverse : Prop :=
  (∀ (i : U22) (j : U23), ∃ p : U45, respond (.pack i j) = .ok (p.setWidth 72) 0
    ∧ respond (.unpack p) = .ok (i.setWidth 72) (j.setWidth 64))
  ∧ ∀ p : U45, ∃ (i : U22) (j : U23), respond (.unpack p) = .ok (i.setWidth 72) (j.setWidth 64)
    ∧ respond (.pack i j) = .ok (p.setWidth 72) 0

/-- R66: a request whose `op` is 0x0 or 0xA to 0xF completes with `IllegalOp`, `info[3:0] = op` and `info[11:4] = 0`,
whatever its operands hold, and no state other than the slot changes. Raising it is the whole effect of the code. -/
def Obligations.ReservedCodesAnswerIllegalOp : Prop :=
  ∀ (op : BitVec 4) (a : BitVec 72) (b : BitVec 64) (s : State), s.slot = none → op = 0x0 ∨ 0xA ≤ op →
    Answers (decode ⟨op, a, b⟩) s (.error .illegalOp (0#8 ++ op))

/-! ### Responses -/

/-- R65, first sentence: when the status is `OK`, `info` is 0 and the result bits that R63 does not name are zero. -/
def Obligations.OkResponsesDriveUnnamedBitsToZero : Prop :=
  ∀ (q : Request) (x : BitVec 72) (y : BitVec 64), respondTo q = .ok x y →
    infoField (respondTo q) = 0 ∧ x &&& ~~~ namedX q.op = 0 ∧ y &&& ~~~ namedY q.op = 0

/-- R200: which operation answers with which status; codes 2, 5, 6 and 7 are never produced. -/
def Obligations.StatusesAreThoseOfTheTable : Prop :=
  ∀ q : Request,
    (statusCode (respondTo q) = 1 → q.op = 0x3 ∨ q.op = 0x5 ∨ q.op = 0x7)
    ∧ (statusCode (respondTo q) = 3 → q.op = 0x2)
    ∧ (statusCode (respondTo q) = 4 ↔ q.op = 0x0 ∨ 0xA ≤ q.op)
    ∧ (q.op = 0x1 ∨ q.op = 0x4 ∨ q.op = 0x6 ∨ q.op = 0x8 ∨ q.op = 0x9 → statusCode (respondTo q) = 0)
    ∧ (statusCode (respondTo q) = 0 ∨ statusCode (respondTo q) = 1 ∨ statusCode (respondTo q) = 3
        ∨ statusCode (respondTo q) = 4)

/-- R201: what `info` records under each status. -/
def Obligations.InfoIsThatOfTheTable : Prop :=
  ∀ q : Request, let r := respondTo q
    (statusCode r = 0 → infoField r = 0)
    ∧ (statusCode r = 1 → infoField r = outOfRangeInfo (q.a.extractLsb' 0 64) q.b ∧ infoField r ≠ 0)
    ∧ (statusCode r = 3 → ∃ k < 9, infoField r = charAt q.a k ++ BitVec.ofNat 4 k ∧ idx (charAt q.a k) = none
        ∧ ∀ j < k, idx (charAt q.a j) ≠ none)
    ∧ (statusCode r = 4 → infoField r = 0#8 ++ q.op)

/-! ### Slot, reset and ports -/

/-- R29: right after reset the block is idle: it offers no response and can accept a request. -/
def Obligations.ResetLeavesTheBlockIdle : Prop :=
  State.reset.slot = none ∧ State.reset.portsOut.reqReady = true ∧ State.reset.portsOut.rspValid = false

/-- R231: at a rising edge with `rst = 1` the slot is emptied, whatever was in it; in that cycle no request is
accepted and no response is offered. -/
def Obligations.ResetEdgeEmptiesTheSlot : Prop :=
  ∀ s : State, s.pins.rst = true →
    s.portsOut.reqReady = false ∧ s.portsOut.rspValid = false
    ∧ step s = .next { slot := none, stimulus := s.stimulus.drop 1, offer := none, draws := s.draws + 1 }

/-- R233: `req_ready` is 1 exactly when `rst = 0` and the slot is empty, and, under a host that keeps R234, an edge
accepts exactly where `req_valid` and `req_ready` are both 1. -/
def Obligations.AcceptanceIsTheHandshake : Prop :=
  ∀ s : State, (s.portsOut.reqReady = true ↔ s.pins.rst = false ∧ s.slot = none)
    ∧ (s.offerBroken = false →
        ((∃ q, s.txn = some (.accept q)) ↔ s.pins.reqValid = true ∧ s.portsOut.reqReady = true))

/-- R61, R235: while `rsp_valid = 1` the response port drives the response in the slot, each field in its place, the
results of an error response being open (R65); and while that response waits for the host, an edge leaves the slot and
the response word as they are, and `rsp_valid` stays 1 unless reset comes. -/
def Obligations.WaitingResponseIsHeld : Prop :=
  ∀ s : State, s.portsOut.rspValid = true →
    (∃ sl, s.slot = some sl ∧ s.portsOut.rspStatus = statusCode sl.rsp ∧ s.portsOut.rspInfo = infoField sl.rsp
      ∧ ∀ x y, sl.rsp = .ok x y → s.portsOut.rspX = x ∧ s.portsOut.rspY = y)
    ∧ (s.pins.rspReady = false → s.offerBroken = false →
      ∃ t, step s = .next t ∧ t.slot = s.slot
        ∧ (t.pins.rst = false → t.portsOut.rspValid = true ∧ t.portWord = s.portWord))

/-- R236: at an edge with `rsp_valid = 1` and `rsp_ready = 1` the response is handed over: the slot is empty, nothing
is accepted at that edge, and a request the host offered there is still offered. -/
def Obligations.HandOverEmptiesTheSlot : Prop :=
  ∀ s : State, s.portsOut.rspValid = true → s.pins.rspReady = true → s.offerBroken = false →
    (∃ r, s.pending = some r ∧ s.txn = some (.deliver r))
    ∧ step s = .next { slot := none, stimulus := s.stimulus.drop 1,
                       offer := if s.pins.reqValid then some s.pins.req else none, draws := s.draws + 1 }

/-- R235, R236, R237: an accepted request is answered. With no reset and a host that keeps R234, offering its next
request from any edge on or not at all, the response is handed over at the first edge from the end of its `LATENCY` on
at which the host takes it, nothing else happens before, and a request then on the port is not lost. -/
def Obligations.AcceptedRequestIsAnsweredAfterItsLatency : Prop :=
  ∀ (s : State) (sl : Slot) (n : Nat) (p : Pins), s.slot = some sl → sl.wait ≤ n →
    (∀ p' ∈ s.stimulus.take (n + 1), p'.rst = false) → HoldsOffer s.offer (s.stimulus.take (n + 1)) →
    (∀ p' ∈ (s.stimulus.take n).drop sl.wait, p'.rspReady = false) →
    s.stimulus[n]? = some p → p.rspReady = true →
    trace (n + 1) s = [.deliver sl.rsp]
    ∧ ∃ t, Host.Core.run core (n + 1) s = .next t ∧ t.slot = none
      ∧ t.offer = if p.reqValid then some p.req else none

/-- R234 and U3: a step is refused exactly when, outside reset, the host no longer holds the request it offered at the
last edge; no instruction is ever refused. -/
def Obligations.OnlyAWithdrawnRequestIsRefused : Prop :=
  ∀ s : State, (∃ r, step s = .refused r) ↔ s.pins.rst = false ∧ s.offerBroken = true

/-- A host that offers one request at every edge, whatever it does with resets and responses, keeps R234, and no run
under it is ever refused. -/
def Obligations.HostThatHoldsItsRequestRunsSafely : Prop :=
  ∀ (q : Request) (n : Nat) (s : State), (∀ p ∈ s.stimulus, p.reqValid = true ∧ p.req = q) →
    s.offer = none ∨ s.offer = some q → SafeRun n s

/-- R239: every edge makes one of the three transaction-level steps on the slot, or none of them and leaves the
response in it alone. -/
def Obligations.EveryEdgeRefinesATransactionStep : Prop :=
  ∀ s t : State, step s = .next t →
    (s.txn = none ∧ t.pending = s.pending)
    ∨ ∃ e, s.txn = some e ∧ txnNext e s.pending = some t.pending

/-- R239: "The observable behaviour of the block is the sequence of (request, response) pairs, in order, with each
response equal to `exec` of its request, cut short only by resets": over every run of every state. -/
def Obligations.EveryRunIsALawfulTrace : Prop := ∀ (n : Nat) (s : State), Lawful s.pending (trace n s)

/-- The invariant of the state (R28, R233, R235) is kept by every step, from every state that has it. -/
def Obligations.EveryStepKeepsTheInvariant : Prop := ∀ s t : State, s.Inv → step s = .next t → t.Inv

/-- The invariant holds right after reset. -/
def Obligations.ResetHasTheInvariant : Prop := State.reset.Inv

/-! ### Arithmetic -/

/-- R11: `fadd`, `fsub`, `fmul` and `fdiv` of finite operands, the divisor not 0, are correctly rounded, to nearest
with ties to even. Where an exact result is too large, infinity is the IEEE 754 answer that the model presumes
(notes/assumptions/19.md). -/
def Obligations.ArithmeticIsCorrectlyRounded : Prop :=
  ∀ a b : F64, isFinite a = true → isFinite b = true →
    RoundsTo (val a + val b) (fadd a b) ∧ RoundsTo (val a - val b) (fsub a b) ∧ RoundsTo (val a * val b) (fmul a b)
    ∧ (val b ≠ 0 → RoundsTo (val a / val b) (fdiv a b))

/-- R11: the comparisons are those of the values (so −0 and +0 are equal), and false whenever either operand is a NaN.
-/
def Obligations.ComparisonsAreOfValues : Prop :=
  ∀ a b : F64,
    (isNaN a = true ∨ isNaN b = true → flt a b = false ∧ fle a b = false ∧ fgt a b = false ∧ fge a b = false)
    ∧ (isFinite a = true → isFinite b = true →
        (flt a b = true ↔ val a < val b) ∧ (fle a b = true ↔ val a ≤ val b)
        ∧ (fgt a b = true ↔ val b < val a) ∧ (fge a b = true ↔ val b ≤ val a))

/-- R11: `ffloor`, `f2n`, `n2f` and `fabs` are exact. -/
def Obligations.ConversionsAreExact : Prop :=
  (∀ a : F64, isFinite a = true → isFinite (ffloor a) = true ∧ val (ffloor a) = ⌊val a⌋)
  ∧ (∀ (a : F64) (n : Nat), isFinite a = true → val a = n → f2n a = n)
  ∧ (∀ n : Nat, n < 2 ^ 53 → isFinite (n2f n) = true ∧ val (n2f n) = n)
  ∧ ∀ a : F64, isFinite a = true → isFinite (fabs a) = true ∧ val (fabs a) = |val a|

/-! ### The host's pseudo-operations -/

/-- R182, R183: `formatForHumans` puts dashes at positions 3 and 7, and `removeFormatting` undoes it. -/
def Obligations.FormattingIsUndone : Prop :=
  ∀ cs : List Byte, cs.length = 9 → ∃ h, formatForHumans cs = some h ∧ h.length = 11 ∧ h[3]? = some dash
    ∧ h[7]? = some dash ∧ removeFormatting h = some cs

/-- R184, R185, R187: encoding an accepted pair, in either form, gives a valid code, and decoding it gives what the
strategy's decoder gives for the cell that its encoder chose. -/
def Obligations.PseudoDecodeGivesThePointOfTheChosenCell : Prop :=
  ∀ (st : Strategy) (lat lon : F64) (human : Bool), Within 90 lat → Within 180 lon →
    ∃ (i : U22) (j : U23) (cs : List Byte) (lat' lon' : F64),
      respond (strategyEncode st lat lon) = .ok (i.setWidth 72) (j.setWidth 64)
      ∧ respond (strategyDecode st i j) = .ok (lat'.setWidth 72) lon'
      ∧ pseudoEncode st lat lon human = .ok cs ∧ isValidEncoding cs = true
      ∧ pseudoDecode st cs = .ok (lat', lon')
end

