-- ==== Sys2Proof/Laws/Families.lean ====
section
/-! SUPPORT. What the operations that several meanings share can do. -/

namespace Sys2Proof.Machine

open Sys2Proof.Config (Numerics Params)

/-- An accepted pair goes through the range check unchanged (R160). -/
theorem rangeChecked_ok {lat lon : F64} (h : latBad lat = false) (h' : lonBad lon = false) (r : Response) :
    rangeChecked lat lon r = r := by simp [rangeChecked, h, h']

/-- A rejected pair is answered alike by every operation that checks it (R161). -/
theorem rangeChecked_bad {lat lon : F64} (h : latBad lat = true ∨ lonBad lon = true) (r : Response) :
    rangeChecked lat lon r = .error .rangeError (rangeInfo (latBad lat) (lonBad lon)) := by
  rcases h with h | h <;> simp [rangeChecked, h, raise]

/-- All that the range check can do. -/
theorem rangeChecked_cases (lat lon : F64) (r : Response) :
    rangeChecked lat lon r = r ∨ rangeChecked lat lon r = .error .rangeError (rangeInfo (latBad lat) (lonBad lon)) := by
  unfold rangeChecked
  split
  · exact .inr rfl
  · exact .inl rfl

variable {α : Type}

/-- An index is clamped to its maximum (R111). -/
theorem fractionIndex_le (N : Numerics α) (off span cells : F64) (top : Nat) (x : F64) :
    fractionIndex N off span cells top x ≤ top := Nat.min_le_right _ _

theorem mqLatIndex_le (P : Params α) (lat : F64) : mqLatIndex P lat ≤ Config.latMax := Nat.min_le_right _ _

theorem mqLonIndex_le (P : Params α) (latIndex : Nat) (lon : F64) : mqLonIndex P latIndex lon ≤ Config.lonMax := by
  unfold mqLonIndex
  split
  · exact fractionIndex_le _ _ _ _ _ _
  · exact Nat.min_le_right _ _

/-- All that a clamp can do (R11). -/
theorem clampTo_cases (N : Numerics α) (lo hi : F64) (a : α) :
    (N.lt a (N.ofF64 lo) = true ∧ clampTo N lo hi a = N.ofF64 lo)
    ∨ (N.lt a (N.ofF64 lo) = false ∧ N.lt (N.ofF64 hi) a = true ∧ clampTo N lo hi a = N.ofF64 hi)
    ∨ (N.lt a (N.ofF64 lo) = false ∧ N.lt (N.ofF64 hi) a = false ∧ clampTo N lo hi a = a) := by
  unfold clampTo
  cases N.lt a (N.ofF64 lo) <;> cases N.lt (N.ofF64 hi) a <;> simp

theorem digits_length (n : Nat) (t : U45) : (digits n t).length = n := by
  induction n generalizing t with
  | zero => rfl
  | succ n ih => simp [digits, ih]

/-- The loop of `B32DEC` at a character outside the alphabet (R94). -/
theorem decodeChars_bad {c : Byte} (h : idx c = none) (cs : List Byte) (k value : Nat) :
    decodeChars (c :: cs) k value = .error .invalidCharacter (charInfo c k) := by simp [decodeChars, h, raise]

/-- The loop of `B32DEC` at a character of the alphabet (R94). -/
theorem decodeChars_good {c : Byte} {i : BitVec 5} (h : idx c = some i) (cs : List Byte) (k value : Nat) :
    decodeChars (c :: cs) k value = decodeChars cs (k + 1) (value * 32 + i.toNat) := by simp [decodeChars, h]

end Sys2Proof.Machine
end

