-- ==== Sys2Proof/Laws/Float.lean ====
section
/-! SUPPORT. The arithmetic: what a bit pattern denotes, what rounding to nearest even gives, and that it is exact on
every representable number. -/

namespace Sys2Proof.Machine

theorem gridUnits_pos : 0 < gridUnits := by decide

/-- A whole number of units of 2^-j is a whole number of grid units. -/
theorem gridUnits_split {j k : Nat} (h : j + k = 1074) : gridUnits = 2 ^ j * 2 ^ k := by
  rw [gridUnits, ← h, Nat.one_shiftLeft, pow_add]

theorem hiddenBit_eq : hiddenBit = 2 ^ 52 := rfl

/-! ### Reading a pattern -/

theorem magBits_lt (a : F64) : magBits a < 2 ^ 63 := Nat.mod_lt _ (by decide)

/-- A datum is its sign and its 63 magnitude bits. -/
theorem toNat_eq_sign_add_magBits (a : F64) :
    a.toNat = (if signBit a then 2 ^ 63 else 0) + magBits a := by
  have h := a.isLt
  unfold signBit magBits
  rw [BitVec.msb_eq_decide]
  simp only [decide_eq_true_eq]
  split_ifs <;> omega

theorem eq_of_sign_of_magBits {a b : F64} (hs : signBit a = signBit b) (hm : magBits a = magBits b) : a = b := by
  apply BitVec.eq_of_toNat_eq
  rw [toNat_eq_sign_add_magBits, toNat_eq_sign_add_magBits b, hs, hm]

/-- The magnitude of a pattern `k * 2^52 + c` whose fraction part with its hidden bit is `c`. -/
theorem gridMag_of_magBits {a : F64} {k c : Nat} (h : magBits a = k * hiddenBit + c) (hc : c < 2 * hiddenBit)
    (hk : k = 0 ∨ hiddenBit ≤ c) : gridMag a = c * 2 ^ k := by
  have hp : 0 < hiddenBit := by decide
  unfold gridMag expBits fracBits
  rw [h, Nat.shiftLeft_eq]
  rcases Nat.lt_or_ge c hiddenBit with hlt | hge
  · obtain rfl : k = 0 := by omega
    simp [Nat.div_eq_of_lt hlt, Nat.mod_eq_of_lt hlt]
  · obtain ⟨d, rfl⟩ : ∃ d, c = hiddenBit + d := ⟨c - hiddenBit, by omega⟩
    have hd : d < hiddenBit := by omega
    have e : k * hiddenBit + (hiddenBit + d) = d + hiddenBit * (k + 1) := by ring
    rw [e, Nat.add_mul_div_left _ _ hp, Nat.add_mul_mod_self_left, Nat.div_eq_of_lt hd, Nat.mod_eq_of_lt hd]
    simp

/-! ### Rounding -/

/-- What `nearestEven` gives: within half of `p / q`, and even in a tie. -/
theorem nearestEven_spec (p : Nat) {q : Nat} (hq : 0 < q) :
    2 * p ≤ (2 * nearestEven p q + 1) * q ∧ 2 * nearestEven p q * q ≤ 2 * p + q
    ∧ ((2 * p = (2 * nearestEven p q + 1) * q ∨ 2 * nearestEven p q * q = 2 * p + q) → nearestEven p q % 2 = 0) := by
  have hm : p % q < q := Nat.mod_lt _ hq
  have hd : p = q * (p / q) + p % q := (Nat.div_add_mod p q).symm
  unfold nearestEven
  generalize p / q = d at *
  generalize p % q = m at *
  subst hd
  have e1 : (2 * d + 1) * q = 2 * (q * d) + q := by ring
  have e2 : 2 * d * q = 2 * (q * d) := by ring
  have e3 : (2 * (d + 1) + 1) * q = 2 * (q * d) + 3 * q := by ring
  have e4 : 2 * (d + 1) * q = 2 * (q * d) + 2 * q := by ring
  split_ifs with h1 h2
  · rw [e1, e2]; omega
  · rw [e1, e2]; omega
  · rw [e3, e4]; omega

/-- A whole quotient is not moved. -/
theorem nearestEven_exact (c : Nat) {q : Nat} (hq : 0 < q) : nearestEven (c * q) q = c := by
  unfold nearestEven
  simp [Nat.mul_mod_left, Nat.mul_div_cancel _ hq, hq]

/-- Rounding keeps the order. -/
theorem nearestEven_mono {p p' q : Nat} (hq : 0 < q) (h : p ≤ p') : nearestEven p q ≤ nearestEven p' q := by
  obtain ⟨-, h2, h3⟩ := nearestEven_spec p hq
  obtain ⟨h4, -, h6⟩ := nearestEven_spec p' hq
  generalize nearestEven p q = n at *
  generalize nearestEven p' q = n' at *
  by_contra hlt
  push Not at hlt
  have h8 : (2 * n' + 1) * q ≤ (2 * n - 1) * q := Nat.mul_le_mul_right _ (by omega)
  have h9 : (2 * n - 1) * q + q = 2 * n * q := by
    rw [← Nat.succ_mul]; congr 1; omega
  have hn : n % 2 = 0 := h3 (.inr (by omega))
  have hn' : n' % 2 = 0 := h6 (.inl (by omega))
  have h10 : (2 * n' + 1) * q < (2 * n - 1) * q := Nat.mul_lt_mul_of_pos_right (by omega) hq
  omega

theorem roundMag_le (p q : Nat) : roundMag p q ≤ infBits := Nat.min_le_right _ _

theorem roundTo_toNat (neg : Bool) (p q : Nat) :
    (roundTo neg p q).toNat = (if neg then 2 ^ 63 else 0) + roundMag p q := by
  have h := roundMag_le p q
  have h' : infBits < 2 ^ 63 := by decide
  have hlt : (if neg = true then 0x8000000000000000 else 0) + roundMag p q < 2 ^ 64 := by split_ifs <;> omega
  rw [roundTo, BitVec.toNat_ofNat, Nat.mod_eq_of_lt hlt]
  rfl

/-- Rounding puts the sign where it is told. -/
theorem signBit_roundTo (neg : Bool) (p q : Nat) : signBit (roundTo neg p q) = neg := by
  have h := roundMag_le p q
  have h' : infBits < 2 ^ 63 := by decide
  unfold signBit
  rw [BitVec.msb_eq_decide, roundTo_toNat]
  cases neg <;> (simp; try omega)

theorem magBits_roundTo (neg : Bool) (p q : Nat) : magBits (roundTo neg p q) = roundMag p q := by
  have h := roundMag_le p q
  have h' : infBits < 2 ^ 63 := by decide
  unfold magBits
  rw [roundTo_toNat]
  cases neg <;> simp <;> omega

/-- No rounding gives a NaN. -/
theorem isNaN_roundTo (neg : Bool) (p q : Nat) : isNaN (roundTo neg p q) = false := by
  simp [isNaN, magBits_roundTo, roundMag_le]

/-- The pattern of a representable magnitude: `p / q` is `c * 2^k` units, in the binade of step `k`. -/
theorem roundMag_exact {p q c k : Nat} (hq : 0 < q) (h : p * gridUnits = c * 2 ^ k * q) (hc : c < 2 * hiddenBit)
    (hk : k = 0 ∨ hiddenBit ≤ c) (hr : k * hiddenBit + c ≤ infBits) : roundMag p q = k * hiddenBit + c := by
  have hlog : Nat.log2 (c * 2 ^ k) - 52 = k := by
    rcases Nat.eq_zero_or_pos c with rfl | hpos
    · rcases hk with rfl | hk
      · simp
      · exact absurd hk (by decide)
    · have hne : c * 2 ^ k ≠ 0 := by positivity
      rcases hk with rfl | hge
      · have : Nat.log2 (c * 2 ^ 0) < 53 := (Nat.log2_lt hne).2 (by simpa using lt_of_lt_of_le hc (by decide))
        omega
      · have h1 : Nat.log2 (c * 2 ^ k) < k + 53 := by
          refine (Nat.log2_lt hne).2 ?_
          rw [pow_add, mul_comm]
          exact Nat.mul_lt_mul_of_pos_left (lt_of_lt_of_le hc (by decide)) (by positivity)
        have h2 : k + 52 ≤ Nat.log2 (c * 2 ^ k) := by
          refine (Nat.le_log2 hne).2 ?_
          rw [pow_add, mul_comm]
          exact Nat.mul_le_mul_right _ (le_trans (by decide) hge)
        omega
  unfold roundMag
  simp only [h, Nat.mul_div_cancel _ hq, hlog]
  rw [Nat.shiftLeft_eq, mul_assoc, mul_comm (2 ^ k) q, nearestEven_exact _ (by positivity), min_eq_left hr]

/-- Rounding a representable number is exact: the datum has exactly the value it was rounded from. -/
theorem gridMag_roundTo_exact {neg : Bool} {p q c k : Nat} (hq : 0 < q) (h : p * gridUnits = c * 2 ^ k * q)
    (hc : c < 2 * hiddenBit) (hk : k = 0 ∨ hiddenBit ≤ c) (hr : k * hiddenBit + c ≤ infBits) :
    gridMag (roundTo neg p q) = c * 2 ^ k :=
  gridMag_of_magBits (by rw [magBits_roundTo, roundMag_exact hq h hc hk hr]) hc hk

/-- Every finite datum is `c * 2^k` units with `c` and `k` as its pattern has them. -/
theorem exists_gridMag (a : F64) : ∃ k c, magBits a = k * hiddenBit + c ∧ c < 2 * hiddenBit
    ∧ (k = 0 ∨ hiddenBit ≤ c) ∧ gridMag a = c * 2 ^ k := by
  have hp : 0 < hiddenBit := by decide
  have hd := Nat.div_add_mod (magBits a) hiddenBit
  have hm := Nat.mod_lt (magBits a) hp
  rcases Nat.eq_zero_or_pos (magBits a / hiddenBit) with h0 | hpos
  · have h : magBits a = 0 * hiddenBit + magBits a % hiddenBit := by rw [h0] at hd; omega
    exact ⟨0, _, h, by omega, .inl rfl, gridMag_of_magBits h (by omega) (.inl rfl)⟩
  · obtain ⟨k, hk⟩ : ∃ k, magBits a / hiddenBit = k + 1 := ⟨_, (Nat.succ_pred_eq_of_pos hpos).symm⟩
    have h : magBits a = k * hiddenBit + (hiddenBit + magBits a % hiddenBit) := by
      rw [hk] at hd
      have : hiddenBit * (k + 1) = k * hiddenBit + hiddenBit := by ring
      omega
    exact ⟨k, _, h, by omega, .inr (by omega), gridMag_of_magBits h (by omega) (.inr (by omega))⟩

/-- Rounding a datum's own magnitude gives the datum back. -/
theorem roundTo_gridMag (a : F64) (hf : isFinite a = true) : roundTo (signBit a) (gridMag a) gridUnits = a := by
  obtain ⟨k, c, hmag, hc, hk, hg⟩ := exists_gridMag a
  have hle : k * hiddenBit + c ≤ infBits := by rw [← hmag]; exact le_of_lt (by simpa [isFinite] using hf)
  refine eq_of_sign_of_magBits (signBit_roundTo _ _ _) ?_
  rw [magBits_roundTo, hmag]
  exact roundMag_exact gridUnits_pos (by rw [hg]) hc hk hle

/-! ### Values -/

theorem natAbs_grid (a : F64) : (grid a).natAbs = gridMag a := by
  unfold grid; split <;> simp

theorem grid_neg_iff (a : F64) : grid a < 0 ↔ signBit a = true ∧ gridMag a ≠ 0 := by
  unfold grid; split <;> simp_all [Nat.pos_iff_ne_zero]

/-- The value of a rounded representable number, as a rational. -/
theorem val_roundTo_exact {neg : Bool} {p q c k : Nat} (hq : 0 < q) (h : p * gridUnits = c * 2 ^ k * q)
    (hc : c < 2 * hiddenBit) (hk : k = 0 ∨ hiddenBit ≤ c) (hr : k * hiddenBit + c ≤ infBits) :
    val (roundTo neg p q) = (if neg then -1 else 1) * ((p : ℚ) / q) := by
  have hg : (gridUnits : ℚ) ≠ 0 := by exact_mod_cast gridUnits_pos.ne'
  have hq' : (q : ℚ) ≠ 0 := by exact_mod_cast hq.ne'
  have h' : (p : ℚ) * gridUnits = (c * 2 ^ k : Nat) * q := by exact_mod_cast h
  unfold val grid
  rw [signBit_roundTo, gridMag_roundTo_exact hq h hc hk hr, div_eq_iff hg]
  cases neg
  · simp only [Bool.false_eq_true, if_false, one_mul, Int.cast_natCast]
    rw [eq_comm, div_mul_eq_mul_div, div_eq_iff hq', h']
  · simp only [if_true, neg_mul, one_mul, Int.cast_neg, Int.cast_natCast]
    rw [neg_inj, eq_comm, div_mul_eq_mul_div, div_eq_iff hq', h']

/-- Rounding `n / 2^j` is exact for `n < 2^53`: every literal, index and cell centre of the rules is of this form. -/
theorem val_roundTo_dyadic {neg : Bool} {p q n j : Nat} (hq : 0 < q) (h : p * 2 ^ j = n * q) (hn : n < 2 ^ 53)
    (hj : j ≤ 1022) : val (roundTo neg p q) = (if neg then -1 else 1) * ((p : ℚ) / q) := by
  have hu : p * gridUnits = n * 2 ^ (1074 - j) * q := by
    rw [gridUnits_split (by omega : j + (1074 - j) = 1074), ← mul_assoc, h]; ring
  have hinf : infBits = 2047 * hiddenBit := by decide
  rcases Nat.eq_zero_or_pos n with rfl | hpos
  · exact val_roundTo_exact (c := 0) (k := 0) hq (by simpa using hu) (by decide) (.inl rfl) (by decide)
  · have hl : Nat.log2 n < 53 := (Nat.log2_lt hpos.ne').2 hn
    have hlo : 2 ^ Nat.log2 n ≤ n := Nat.log2_self_le hpos.ne'
    have hhi : n < 2 ^ (Nat.log2 n + 1) := Nat.lt_log2_self
    generalize Nat.log2 n = l at *
    have hc : n * 2 ^ (52 - l) < 2 * hiddenBit :=
      calc n * 2 ^ (52 - l) < 2 ^ (l + 1) * 2 ^ (52 - l) := Nat.mul_lt_mul_of_pos_right hhi (by positivity)
        _ = 2 * hiddenBit := by rw [← pow_add, hiddenBit_eq, ← pow_succ']; congr 1; omega
    have hge : hiddenBit ≤ n * 2 ^ (52 - l) :=
      calc hiddenBit = 2 ^ l * 2 ^ (52 - l) := by rw [← pow_add, hiddenBit_eq]; congr 1; omega
        _ ≤ n * 2 ^ (52 - l) := Nat.mul_le_mul_right _ hlo
    refine val_roundTo_exact (c := n * 2 ^ (52 - l)) (k := 1074 - j - (52 - l)) hq ?_ hc (.inr hge) ?_
    · have e : 1074 - j = (52 - l) + (1074 - j - (52 - l)) := by omega
      rw [hu, e, pow_add, ← e]; ring
    · have : (1074 - j - (52 - l)) * hiddenBit ≤ 1074 * hiddenBit := Nat.mul_le_mul_right _ (by omega)
      omega

/-! ### The cosine -/

/-- CP2 in the order of patterns, for every function the block could be built with. -/
theorem boundedCos_bound (f : F64 → F64) {a : F64} (h : cosDomain a = true) : cosBound (boundedCos f a) = true := by
  unfold boundedCos
  cases hb : cosBound (f a)
  · simpa [h] using (show cosBound lit1 = true by decide)
  · simpa [h] using hb

/-- A function that has CP2 is used as it stands. -/
theorem boundedCos_self {f : F64 → F64} (hf : ∀ a, cosDomain a = true → cosBound (f a) = true) : boundedCos f = f := by
  funext a
  unfold boundedCos
  cases h : cosDomain a
  · simp
  · simp [hf a h]

end Sys2Proof.Machine
end

