-- ==== Sys2Proof/Laws/Operands.lean ====
section
/-! SUPPORT. Putting fields together and reading them apart: a request word and its fields, a code and its characters. -/

namespace Sys2Proof

theorem requestOfWord_wordOfRequest (q : Request) : requestOfWord (wordOfRequest q) = q := by
  obtain ⟨op, a, b⟩ := q
  simp only [requestOfWord, wordOfRequest, Request.mk.injEq]
  refine ⟨?_, ?_, ?_⟩
  · ext k hk
    rw [BitVec.getElem_extractLsb']
    erw [BitVec.getLsbD_append, BitVec.getLsbD_append]
    have e : 136 + k - 64 - 72 = k := by omega
    rw [if_neg (by omega), if_neg (by omega), e, BitVec.getLsbD_eq_getElem hk]
  · ext k hk
    rw [BitVec.getElem_extractLsb']
    erw [BitVec.getLsbD_append, BitVec.getLsbD_append]
    have e : 64 + k - 64 = k := by omega
    rw [if_neg (by omega), if_pos (by omega), e, BitVec.getLsbD_eq_getElem hk]
  · ext k hk
    rw [BitVec.getElem_extractLsb']
    erw [BitVec.getLsbD_append, BitVec.getLsbD_append]
    rw [if_pos (by omega), Nat.zero_add, BitVec.getLsbD_eq_getElem hk]

theorem wordOfRequest_requestOfWord (w : BitVec 140) : wordOfRequest (requestOfWord w) = w := by
  apply BitVec.eq_of_getLsbD_eq
  intro k hk
  simp only [requestOfWord, wordOfRequest]
  erw [BitVec.getLsbD_append, BitVec.getLsbD_append]
  rcases Nat.lt_or_ge k 64 with h | h
  · simp [h]
  · rcases Nat.lt_or_ge k 136 with h' | h'
    · have e : 64 + (k - 64) = k := by omega
      have h1 : ¬ k < 64 := by omega
      have h2 : k - 64 < 72 := by omega
      simp [h1, h2, e]
    · have e : 136 + (k - 64 - 72) = k := by omega
      have h1 : ¬ k < 64 := by omega
      have h2 : ¬ k - 64 < 72 := by omega
      have h3 : k - 64 - 72 < 4 := by omega
      simp [h1, h2, h3, e]

namespace Machine

/-- Nine characters packed and read apart again. -/
theorem chars_packChars {cs : List Byte} (h : cs.length = 9) : chars (packChars cs) = cs := by
  match cs, h with
  | [c0, c1, c2, c3, c4, c5, c6, c7, c8], _ =>
    simp only [chars, packChars, charAt, List.range, List.range.loop, List.map, List.foldl, List.cons.injEq, and_true]
    refine ⟨?_, ?_, ?_, ?_, ?_, ?_, ?_, ?_, ?_⟩
    all_goals
      ext k hk
      simp [BitVec.getElem_extractLsb', BitVec.getLsbD_or, BitVec.getLsbD_shiftLeft]
      interval_cases k <;> simp

end Machine

end Sys2Proof
end

