-- ==== Sys2Proof/Laws/State.lean ====
section
/-! SUPPORT. One lemma per field per update of the state, so that no proof unfolds a record update. -/

namespace Sys2Proof.Machine

variable (s : State) (r : Response) (q : Request)

@[simp] theorem State.filled_slot :
    (s.filled r).slot = some { rsp := r, wait := Config.latency s.draws, tag := s.draws } := rfl
@[simp] theorem State.filled_stimulus : (s.filled r).stimulus = s.stimulus := rfl
@[simp] theorem State.filled_offer : (s.filled r).offer = s.offer := rfl
@[simp] theorem State.filled_draws : (s.filled r).draws = s.draws := rfl

@[simp] theorem State.emptied_slot : s.emptied.slot = none := rfl
@[simp] theorem State.emptied_stimulus : s.emptied.stimulus = s.stimulus := rfl
@[simp] theorem State.emptied_offer : s.emptied.offer = s.offer := rfl
@[simp] theorem State.emptied_draws : s.emptied.draws = s.draws := rfl

@[simp] theorem State.countDown_slot :
    s.countDown.slot = s.slot.map fun sl => { sl with wait := sl.wait - 1 } := rfl
@[simp] theorem State.countDown_stimulus : s.countDown.stimulus = s.stimulus := rfl
@[simp] theorem State.countDown_offer : s.countDown.offer = s.offer := rfl
@[simp] theorem State.countDown_draws : s.countDown.draws = s.draws := rfl

@[simp] theorem State.tick_slot : s.tick.slot = s.slot := rfl
@[simp] theorem State.tick_stimulus : s.tick.stimulus = s.stimulus.drop 1 := rfl
@[simp] theorem State.tick_offer :
    s.tick.offer = if !s.pins.rst && s.full && s.pins.reqValid then some s.pins.req else none := rfl
@[simp] theorem State.tick_draws : s.tick.draws = s.draws + 1 := rfl

@[simp] theorem State.withRequest_slot : (s.withRequest q).slot = none := rfl
@[simp] theorem State.withRequest_offer : (s.withRequest q).offer = none := rfl
@[simp] theorem State.withRequest_draws : (s.withRequest q).draws = s.draws := rfl
@[simp] theorem State.withRequest_stimulus : (s.withRequest q).stimulus =
    { s.pins with rst := false, reqValid := true, req := q } :: s.stimulus.drop 1 := rfl
@[simp] theorem State.withRequest_pins :
    (s.withRequest q).pins = { s.pins with rst := false, reqValid := true, req := q } := rfl

@[simp] theorem State.reset_slot : State.reset.slot = none := rfl
@[simp] theorem State.reset_stimulus : State.reset.stimulus = [] := rfl
@[simp] theorem State.reset_offer : State.reset.offer = none := rfl
@[simp] theorem State.reset_draws : State.reset.draws = 0 := rfl

end Sys2Proof.Machine
end

