-- ==== Sys2Proof/Laws/Ops.lean ====
section
/-! SUPPORT. What the shared operations over the slot can do, said once each. -/

namespace Sys2Proof.Machine

variable {s t : State} {r : Response}

theorem State.full_eq_false : s.full = false ↔ s.slot = none := by simp [State.full]

theorem State.full_eq_true : s.full = true ↔ ∃ sl, s.slot = some sl := by simp [State.full, Option.isSome_iff_exists]

/-- `accept` at an idle block (R28). -/
theorem accept_idle (r : Response) (h : s.slot = none) : accept r s = .next (s.filled r) := by simp [accept, h]

/-- `accept` at a full slot (R236). -/
theorem accept_full (r : Response) {sl : Slot} (h : s.slot = some sl) : accept r s = .next s := by simp [accept, h]

/-- All that `accept` can do. -/
theorem accept_cases (h : accept r s = .next t) :
    (s.slot = none ∧ t = s.filled r) ∨ ((∃ sl, s.slot = some sl) ∧ t = s) := by
  unfold accept at h
  split at h
  · exact .inl ⟨‹_›, (Host.Outcome.next.inj h).symm⟩
  · exact .inr ⟨⟨_, ‹_›⟩, (Host.Outcome.next.inj h).symm⟩

/-- `accept` leaves everything but the slot as it was. -/
theorem accept_frame (h : accept r s = .next t) :
    t.stimulus = s.stimulus ∧ t.offer = s.offer ∧ t.draws = s.draws := by
  rcases accept_cases h with ⟨-, rfl⟩ | ⟨-, rfl⟩ <;> simp

/-- `raise` ends the operation with an error response (R204). -/
theorem raise_eq (e : ErrorStatus) (info : BitVec 12) : raise e info = .error e info := rfl

theorem State.countDown_none (h : s.slot = none) : s.countDown.slot = none := by simp [h]

theorem State.countDown_some {sl : Slot} (h : s.slot = some sl) :
    s.countDown.slot = some { sl with wait := sl.wait - 1 } := by simp [h]

theorem State.ready_iff : s.ready = true ↔ ∃ sl, s.slot = some sl ∧ sl.wait = 0 := by
  unfold State.ready
  split <;> simp_all

/-- `rsp_valid = 1` says that there is a response whose `LATENCY` is over, and no reset (R231, R235). -/
theorem State.rspValid_iff :
    s.portsOut.rspValid = true ↔ s.pins.rst = false ∧ ∃ sl, s.slot = some sl ∧ sl.wait = 0 := by
  simp [State.portsOut, State.ready_iff]

/-- What the response port carries then (R235). -/
theorem State.portWord_of_ready {sl : Slot} (hr : s.pins.rst = false) (hs : s.slot = some sl) (hw : sl.wait = 0) :
    s.portWord = responseWord sl := by simp [State.portWord, hs, hw, hr]

/-- All that an edge can be, with what makes it so (R231, R233, R234, R236). -/
theorem State.edge_cases (s : State) :
    (s.edge = .reset ∧ s.pins.rst = true)
    ∨ (s.edge = .broken ∧ s.pins.rst = false ∧ s.offerBroken = true)
    ∨ (s.edge = .handOver ∧ s.pins.rst = false ∧ s.offerBroken = false ∧ s.full = true
        ∧ s.ready = true ∧ s.pins.rspReady = true)
    ∨ (s.edge = .hold ∧ s.pins.rst = false ∧ s.offerBroken = false ∧ s.full = true
        ∧ (s.ready && s.pins.rspReady) = false)
    ∨ (s.edge = .accept s.pins.req ∧ s.pins.rst = false ∧ s.offerBroken = false ∧ s.full = false
        ∧ s.pins.reqValid = true)
    ∨ (s.edge = .idle ∧ s.pins.rst = false ∧ s.offerBroken = false ∧ s.full = false
        ∧ s.pins.reqValid = false) := by
  unfold State.edge
  split_ifs <;> simp_all

/-- Every meaning is the acceptance of its instruction's response (R28). -/
theorem exec_eq_accept (i : Instr) (s : State) : exec i s = accept (respond i) s := by cases i <;> rfl

/-- A run of one step and the rest. -/
theorem run_succ_of_step {n : Nat} (h : step s = .next t) :
    Host.Core.run Sys2Proof.core (n + 1) s = Host.Core.run Sys2Proof.core n t := by
  have h' : Sys2Proof.core.step s = .next t := h
  simp only [Host.Core.run]
  rw [h']

end Sys2Proof.Machine
end

