-- ==== Sys2Proof/Laws/PerInstr.lean ====
section
/-! SUPPORT. Facts about every instruction, one lemma per constructor: the request a host issues for it drives every
operand bit that R63 does not name to zero (R64). -/

namespace Sys2Proof.Laws

/-- A value widened from `m` bits has nothing from bit `m` up. -/
theorem ushiftRight_setWidth_self {m n : Nat} (v : BitVec m) : (v.setWidth n) >>> m = 0 := by
  ext i hi
  simp [BitVec.getLsbD_of_ge]

/-- The request of `i` is well-formed. -/
def EncodeWellFormed.Statement (i : Instr) : Prop := (encodeRequest i).wf = true

theorem EncodeWellFormed.b32enc (v : U45) : Statement (.b32enc v) := by
  simp [Statement, encodeRequest, opcode, operandA, operandB, Request.wf, Request.aWithin, Request.bWithin,
    ushiftRight_setWidth_self]

theorem EncodeWellFormed.b32dec (code : Code9) : Statement (.b32dec code) := by
  simp [Statement, encodeRequest, opcode, operandB, Request.wf, Request.bWithin]

theorem EncodeWellFormed.uqenc (lat lon : F64) : Statement (.uqenc lat lon) := by
  simp [Statement, encodeRequest, opcode, operandA, Request.wf, Request.aWithin, ushiftRight_setWidth_self]

theorem EncodeWellFormed.uqdec (latIndex : U22) (lonIndex : U23) : Statement (.uqdec latIndex lonIndex) := by
  simp [Statement, encodeRequest, opcode, operandA, operandB, Request.wf, Request.aWithin, Request.bWithin,
    ushiftRight_setWidth_self]

theorem EncodeWellFormed.mqenc (lat lon : F64) : Statement (.mqenc lat lon) := by
  simp [Statement, encodeRequest, opcode, operandA, Request.wf, Request.aWithin, ushiftRight_setWidth_self]

theorem EncodeWellFormed.mqdec (latIndex : U22) (lonIndex : U23) : Statement (.mqdec latIndex lonIndex) := by
  simp [Statement, encodeRequest, opcode, operandA, operandB, Request.wf, Request.aWithin, Request.bWithin,
    ushiftRight_setWidth_self]

theorem EncodeWellFormed.cval (lat lon : F64) : Statement (.cval lat lon) := by
  simp [Statement, encodeRequest, opcode, operandA, Request.wf, Request.aWithin, ushiftRight_setWidth_self]

theorem EncodeWellFormed.unpack (packed : U45) : Statement (.unpack packed) := by
  simp [Statement, encodeRequest, opcode, operandA, operandB, Request.wf, Request.aWithin, Request.bWithin,
    ushiftRight_setWidth_self]

theorem EncodeWellFormed.pack (latIndex : U22) (lonIndex : U23) : Statement (.pack latIndex lonIndex) := by
  simp [Statement, encodeRequest, opcode, operandA, operandB, Request.wf, Request.aWithin, Request.bWithin,
    ushiftRight_setWidth_self]

theorem EncodeWellFormed.reserved0 : Statement .reserved0 := rfl
theorem EncodeWellFormed.reservedA : Statement .reservedA := rfl
theorem EncodeWellFormed.reservedB : Statement .reservedB := rfl
theorem EncodeWellFormed.reservedC : Statement .reservedC := rfl
theorem EncodeWellFormed.reservedD : Statement .reservedD := rfl
theorem EncodeWellFormed.reservedE : Statement .reservedE := rfl
theorem EncodeWellFormed.reservedF : Statement .reservedF := rfl

end Sys2Proof.Laws
end

