-- ==== Sys2Proof/Laws/Step.lean ====
section
/-! SUPPORT. All that a step can do, said once. -/

namespace Sys2Proof.Machine

variable {s t : State}

theorem step_reset (h : s.pins.rst = true) : step s = .next s.tick.emptied := by simp [step, State.edge, h]

theorem step_accept (h0 : s.pins.rst = false) (hb : s.offerBroken = false) (hs : s.slot = none)
    (hv : s.pins.reqValid = true) : step s = .next (s.tick.filled (respond (decode s.pins.req))) := by
  have hn : s.tick.slot = none := hs
  simp [step, State.edge, h0, hb, hv, State.full, hs, exec_eq_accept, accept_idle _ hn]

/-- Every step that answers is a reset, a hand-over, a cycle with the slot full, an acceptance, or an idle cycle. -/
theorem step_cases (h : step s = .next t) :
    (s.pins.rst = true ∧ t = s.tick.emptied)
    ∨ (s.pins.rst = false ∧ s.offerBroken = false ∧
        ((∃ sl, s.slot = some sl ∧ sl.wait = 0 ∧ s.pins.rspReady = true ∧ t = s.tick.emptied)
        ∨ (∃ sl, s.slot = some sl ∧ (sl.wait ≠ 0 ∨ s.pins.rspReady = false) ∧ t = s.tick.countDown)
        ∨ (s.slot = none ∧ s.pins.reqValid = true ∧ t = s.tick.filled (respond (decode s.pins.req)))
        ∨ (s.slot = none ∧ s.pins.reqValid = false ∧ t = s.tick))) := by
  rcases s.edge_cases with e | e | e | e | e | e
  · exact .inl ⟨e.2, by simpa [step, e, eq_comm] using h⟩
  · simp [step, e] at h
  · obtain ⟨sl, hs, hw⟩ := State.ready_iff.1 e.2.2.2.2.1
    exact .inr ⟨e.2.1, e.2.2.1, .inl ⟨sl, hs, hw, e.2.2.2.2.2, by simpa [step, e, eq_comm] using h⟩⟩
  · obtain ⟨sl, hs⟩ := State.full_eq_true.1 e.2.2.2.1
    refine .inr ⟨e.2.1, e.2.2.1, .inr (.inl ⟨sl, hs, ?_, by simpa [step, e, eq_comm] using h⟩)⟩
    have hr := e.2.2.2.2
    simp only [State.ready, hs, Bool.and_eq_false_iff] at hr
    simpa using hr
  · have hs := State.full_eq_false.1 e.2.2.2.1
    rw [step_accept e.2.1 e.2.2.1 hs e.2.2.2.2] at h
    exact .inr ⟨e.2.1, e.2.2.1, .inr (.inr (.inl ⟨hs, e.2.2.2.2, (Host.Outcome.next.inj h).symm⟩))⟩
  · have hs := State.full_eq_false.1 e.2.2.2.1
    exact .inr ⟨e.2.1, e.2.2.1, .inr (.inr (.inr ⟨hs, e.2.2.2.2, by simpa [step, e, eq_comm] using h⟩))⟩

end Sys2Proof.Machine
end

