-- ==== Sys2Proof/Laws/Tables.lean ====
section
/-! SUPPORT. The tables: the ROM has the canonical form and an entry for every index, and `IDX` inverts `ALPHA`. -/

namespace Sys2Proof.Machine

theorem alphaRom_wf : Memory.wf alphaRom = true := by decide

/-- No read of the ROM can fail (R44). -/
theorem alphaRom_reads (i : BitVec 5) : memRead alphaRom i.toNat = some (alpha i) := by
  revert i; decide

/-- A character that a symbol is given is looked up to that symbol. -/
theorem idx_some_upper {c : Byte} {i : BitVec 5} (h : idx c = some i) : alpha i = upper c := by
  revert h; revert i; revert c; decide +kernel

theorem upper_upper (c : Byte) : upper (upper c) = upper c := by
  revert c; decide +kernel

/-- `IDX` looks at the upper-case form of its character alone (R42). -/
theorem idx_upper (c : Byte) : idx (upper c) = idx c := by
  simp [idx, upper_upper]

end Sys2Proof.Machine
end

