-- ==== Sys2Proof/Tests/Slice0.lean ====
section
/-! SUPPORT. Tests by evaluation. The expected values are those of 95_test_vectors.md, section or program by section,
or are worked out by hand from a rule where one is named; and, for every statement with hypotheses, a state and
operands that meet them. -/

namespace Sys2Proof.Tests

open Sys2Proof Sys2Proof.Machine

/-! ### Well-formed requests: one request refused by each check (R64) -/

theorem test_wf_b32enc_high_a : Request.wf ⟨0x1, 0x200000000000, 0⟩ = false := by decide
theorem test_wf_b32enc_b : Request.wf ⟨0x1, 0, 1⟩ = false := by decide
theorem test_wf_b32dec_b : Request.wf ⟨0x2, 0, 1⟩ = false := by decide
theorem test_wf_uqenc_high_a : Request.wf ⟨0x3, 0x10000000000000000, 0⟩ = false := by decide
theorem test_wf_uqdec_high_a : Request.wf ⟨0x4, 0x400000, 0⟩ = false := by decide
theorem test_wf_uqdec_high_b : Request.wf ⟨0x4, 0, 0x800000⟩ = false := by decide
theorem test_wf_mqenc_high_a : Request.wf ⟨0x5, 0x10000000000000000, 0⟩ = false := by decide
theorem test_wf_mqdec_high_a : Request.wf ⟨0x6, 0x400000, 0⟩ = false := by decide
theorem test_wf_mqdec_high_b : Request.wf ⟨0x6, 0, 0x800000⟩ = false := by decide
theorem test_wf_cval_high_a : Request.wf ⟨0x7, 0x10000000000000000, 0⟩ = false := by decide
theorem test_wf_unpack_high_a : Request.wf ⟨0x8, 0x200000000000, 0⟩ = false := by decide
theorem test_wf_unpack_b : Request.wf ⟨0x8, 0, 1⟩ = false := by decide
theorem test_wf_pack_high_a : Request.wf ⟨0x9, 0x400000, 0⟩ = false := by decide
theorem test_wf_pack_high_b : Request.wf ⟨0x9, 0, 0x800000⟩ = false := by decide
theorem test_wf_reserved_a : Request.wf ⟨0xA, 1, 0⟩ = false := by decide
theorem test_wf_reserved_b : Request.wf ⟨0x0, 0, 1⟩ = false := by decide
theorem test_wf_full_operands : Request.wf ⟨0x4, 0x3FFFFF, 0x7FFFFF⟩ = true := by decide

/-! ### Decoding: a word for every row, written out from R60, R62 and R63 -/

theorem test_decode_b32enc : decodeTableWord 144 0x1000000173CE225AFCF0000000000000000
    = some (.b32enc 0x173CE225AFCF) := by decide
theorem test_decode_b32dec : decodeTableWord 144 0x251374B4832424259460000000000000000
    = some (.b32dec 0x51374B483242425946) := by decide
theorem test_decode_uqenc : decodeTableWord 144 0x30040445B3D07C84B5EC05280624DD2F1AA
    = some (.uqenc 0x40445B3D07C84B5E 0xC05280624DD2F1AA) := by decide
theorem test_decode_uqdec : decodeTableWord 144 0x400000000000020000000000000007FFFFF
    = some (.uqdec 2097152 8388607) := by decide
theorem test_decode_mqenc : decodeTableWord 144 0x50040445B3D07C84B5EC05280624DD2F1AA
    = some (.mqenc 0x40445B3D07C84B5E 0xC05280624DD2F1AA) := by decide
theorem test_decode_mqdec : decodeTableWord 144 0x60000000000002E79C4000000000025AFCF
    = some (.mqdec 3045828 2469839) := by decide
theorem test_decode_cval : decodeTableWord 144 0x700C056800000000000C066800000000000
    = some (.cval 0xC056800000000000 0xC066800000000000) := by decide
theorem test_decode_unpack : decodeTableWord 144 0x80000001000007FFFFF0000000000000000
    = some (.unpack 0x1000007FFFFF) := by decide
theorem test_decode_pack : decodeTableWord 144 0x90000000000002000000000000000400000
    = some (.pack 2097152 4194304) := by decide
theorem test_decode_reserved0 : decodeTableWord 144 0 = some .reserved0 := by decide
theorem test_decode_reservedA : decodeTableWord 144 0xA0000000000000000000000000000000000
    = some .reservedA := by decide
theorem test_decode_reservedB : decodeTableWord 144 0xB0000000000000000000000000000000001
    = some .reservedB := by decide
theorem test_decode_reservedC : decodeTableWord 144 0xC0000000000000000000000000000000000
    = some .reservedC := by decide
theorem test_decode_reservedD : decodeTableWord 144 0xD0000000000000000000000000000000000
    = some .reservedD := by decide
theorem test_decode_reservedE : decodeTableWord 144 0xE0000000000000000000000000000000000
    = some .reservedE := by decide
theorem test_decode_reservedF : decodeTableWord 140 0xF123456789ABCDEF012FEDCBA9876543210
    = some .reservedF := by decide
/-- The ignored bits of 2.9: indices too large for their fields. -/
theorem test_decode_ignores_spill : decode ⟨0x9, 0x400001, 0x800002⟩ = .pack 1 2 := by decide
theorem test_decode_refuses_long : decodeTableWord 144 0x100000000000000000000000000000000000 = none := by decide
theorem test_encode_pack : encode (.pack 2097152 4194304) = 0x90000000000002000000000000000400000 := by decide

/-! ### Base32 (2.1, 2.2) -/

theorem test_b32enc_vector : respond (.b32enc 0x0123456789AB) = .ok 0x313444325046324442 0 := by decide
theorem test_b32enc_top : respond (.b32enc 0x1FFFFFFFFFFF) = .ok 0x5A5A5A5A5A5A5A5A5A 0 := by decide
theorem test_b32dec_mixed_case : respond (.b32dec 0x51376B483262425966) = .ok 0x173CE225AFCF 0 := by decide
theorem test_b32dec_leftmost_bad : respond (.b32dec 0x414243494546474849) = .error .invalidCharacter 0x493 := by decide

/-! ### Arithmetic: the steps that 95_test_vectors.md writes out -/

theorem test_literals : [n2f 90, n2f 180, n2f 360, n2f 89, n2f 111320, n2f 4194304, n2f 8388608, n2f 1]
    = [lit90, lit180, lit360, lit89, lit111320, litLatCells, litLonCells, lit1] := by decide +kernel
theorem test_cell_size : cellSizeM params = 0x40131BFE00000000 := by decide +kernel
/-- 2.3, the second row that exact arithmetic answers otherwise. -/
theorem test_fadd_rounds : fadd 0x4030ACE70FFFFFFF lit90 = 0x405AAB39C4000000 := by decide +kernel
/-- 2.6, the row (45.0, 90.0): `lonMeters` and `h`. -/
theorem test_fmul_rounds : fmul 0x4070E00000000000 0x40F337B18EF5BA3A = 0x417444BD44C72A69 := by decide +kernel
theorem test_fdiv_rounds : fdiv 0x417444BD44C72A69 0x400B0651B1098DE2 = 0x4157FFFFFFFFFFFF := by decide +kernel
/-- 2.7, the row (3110183, 4194305): `q4 = z − 180`. -/
theorem test_fadd_cancels : fadd litNeg180 0x4066800087000001 = 0x3F10E00000200000 := by decide +kernel

/-! ### The validator and the quantizers (2.3, 2.4, 2.6 to 2.8) -/

theorem test_cval_corner : respond (.cval litNeg90 litNeg180) = .ok 0 0 := by decide
theorem test_cval_infinities : respond (.cval 0x7FF0000000000000 0xFFF0000000000000) = .error .rangeError 3 := by decide
theorem test_uqenc_new_york : respond (.uqenc 0x40445B3D07C84B5E 0xC05280624DD2F1AA) = .ok 3045828 2469839 := by
  decide +kernel
theorem test_uqenc_rounds_up : respond (.uqenc 0x4030ACE70FFFFFFF 0) = .ok 2485717 4194304 := by decide +kernel
theorem test_uqenc_exact_differs :
    uqencResponse exactParams 0x4030ACE70FFFFFFF 0 = .ok 2485716 4194304 := by decide +kernel
theorem test_uqdec_london : respond (.uqdec 3297361 4191326) = .ok 0x4049C0F29C000000 0xBFC05B1C00000000 := by decide +kernel
theorem test_uqdec_first_cell : respond (.uqdec 0 0) = .ok 0xC0567FFFA6000000 0xC0667FFFD3000000 := by decide +kernel

/-- The default configuration with one value for the cosine: the one `COSDEG_REF` has where a vector asks it (2.5). -/
def withCos (c : F64) : Config.Params F64 := { params with cosdeg := fun _ => c }

/-- 2.6: the row that differs from `UQENC`. -/
theorem test_mqenc_below_boundary :
    mqencResponse (withCos 0x3FE6A09DD8532137) 0x4046800000000000 0x4056800000000000 = .ok 3145728 6291455 := by
  decide +kernel
theorem test_mqenc_polar : respond (.mqenc 0xC056600000000000 0xC060E00000000000) = .ok 11650 1048576 := by decide +kernel
/-- 2.7: the row (3110183, 4194305), which differs from `UQDEC`. -/
theorem test_mqdec_vector : mqdecResponse (withCos 0x3FE738C43C716FBE) 3110183 4194305
    = .ok 0x4045BCBF8C000000 0x3F10E00000200000 := by decide +kernel
theorem test_mqdec_polar : respond (.mqdec 23301 0) = .ok 0xC056400022000000 0xC0667FFFD3000000 := by decide +kernel
theorem test_polar_edges : (polar params 23301, polar params 23302, polar params 4171001, polar params 4171002)
    = (true, false, false, true) := by decide +kernel

/-! ### Packed cells and reserved codes (2.9, 2.10) -/

theorem test_unpack_vector : respond (.unpack 0x173EF125B1AC) = .ok 3046882 2470316 := by decide
theorem test_pack_vector : respond (.pack 3046882 2470316) = .ok 0x173EF125B1AC 0 := by decide
theorem test_reservedF : respondTo (requestOfWord 0xF123456789ABCDEF012FEDCBA9876543210)
    = .error .illegalOp 0x00F := by decide
theorem test_reserved0 : respond .reserved0 = .error .illegalOp 0 := by decide
theorem test_reservedA : respond .reservedA = .error .illegalOp 0x00A := by decide

/-! ### The slot and the ports: the trace P6 of 95_test_vectors.md, edge by edge -/

/-- The request of P6. -/
def r1 : Request := requestOfWord 0x30000000000000000000000000000000000

/-- The response to it. -/
def r1Response : Response := .ok 2097152 4194304

/-- A block with the given slot and one edge's inputs laid out. -/
def at1 (slot : Option Slot) (p : Pins) : State := { slot := slot, stimulus := [p], offer := none, draws := 0 }

/-- The response in the slot after a step that answers. -/
def afterStep (s : State) : Option (Option Response) :=
  match step s with
  | .next t => some t.pending
  | .fault _ => none
  | .refused _ => none

theorem test_p6_accept : afterStep (at1 none ⟨false, true, r1, false⟩) = some (some r1Response) := by decide +kernel
theorem test_p6_full_turns_away : afterStep (at1 (some ⟨r1Response, 0, 0⟩) ⟨false, true, ⟨0, 0, 0⟩, false⟩)
    = some (some r1Response) := by decide
theorem test_p6_reset_drops : afterStep (at1 (some ⟨r1Response, 0, 0⟩) ⟨true, false, r1, true⟩) = some none := by
  decide
theorem test_p6_idle_delivers_nothing : (at1 none ⟨false, false, r1, true⟩).portsOut.rspValid = false := by decide
theorem test_p6_deliver : (at1 (some ⟨r1Response, 0, 0⟩) ⟨false, false, r1, true⟩).txn
    = some (.deliver r1Response) := by decide
/-- R236: nothing is accepted at the edge of a hand-over. -/
theorem test_hand_over_accepts_nothing : afterStep (at1 (some ⟨r1Response, 0, 0⟩) ⟨false, true, r1, true⟩)
    = some none := by decide
/-- R235: while `LATENCY` runs there is no response to take. -/
theorem test_latency_holds : afterStep (at1 (some ⟨r1Response, 1, 0⟩) ⟨false, false, r1, true⟩)
    = some (some r1Response) := by decide
/-- The response word of P1, line q. -/
theorem test_response_word : responseWord ⟨r1Response, 0, 0⟩ = 0x00000000000000002000000000000000400000 := by decide
/-- P4: the top 15 bits of the response word are 011 0100 1001 0011. -/
theorem test_error_word_top :
    (let r := respondTo (requestOfWord 0x24142434945464748490000000000000000)
     statusCode r ++ infoField r) = 0b011010010010011#15 := by decide
/-- R234: a request withdrawn while the slot is full. -/
theorem test_withdrawn_is_refused :
    (match step { at1 (some ⟨r1Response, 0, 0⟩) ⟨false, false, r1, false⟩ with offer := some r1 } with
     | .refused r => decide (r = .requestNotHeld)
     | .next _ => false) = true := by decide
theorem test_fetch_word : afterStep (State.reset.withFetchWord 144 0x90000000000002000000000000000400000)
    = some (some (.ok 0x100000400000 0)) := by decide

/-! ### The host's side: programs P1, P2 and P4 as lines, and its strings (S4, S5, S11) -/

/-- The bytes of a string. -/
def bytes (s : String) : List Byte := s.toList.map fun c => BitVec.ofNat 8 c.toNat

theorem test_program_p1 : runLines false []
    [.op "q" .uqenc (.decimal false 0 1) (some (.decimal false 0 1)),
     .op "p" .pack (.ref "q" .latIndex) (some (.ref "q" .lonIndex)),
     .op "c" .b32enc (.ref "p" .packed) none]
    = [.ok 2097152 4194304, .ok 0x100000400000 0, .ok 0x473030303430303030 0] := by decide +kernel
theorem test_program_p4_stops : runLines false []
    [.op "v" .b32dec (.code (bytes "ABCIEFGHI")) none, .op "u" .unpack (.ref "v" .v) none]
    = [.error .invalidCharacter 0x493] := by decide
theorem test_decimal_literal : operandValue [] (.decimal true 740060 4) = some 0xC05280624DD2F1AA := by decide +kernel
theorem test_format : formatForHumans (bytes "Q7KH2BBYF") = some (bytes "Q7K-H2B-BYF") := by decide
theorem test_pseudo_decode_bad_dashes :
    (match pseudoDecode .uniform (bytes "Q7KH-2BB-YF") with
     | .ok _ => none
     | .error e => some e) = some .formatError := by decide
theorem test_pseudo_encode_human :
    (pseudoEncode .uniform 0x40445B3D07C84B5E 0xC05280624DD2F1AA true).toOption = some (bytes "Q7K-H2B-BYF") := by
  decide +kernel

/-! ### For every statement with hypotheses, what meets them -/

theorem witness_ignored_bits : ∃ q q' : Request, q ≠ q' ∧ q.op = q'.op ∧ q.a &&& namedA q.op = q'.a &&& namedA q.op
    ∧ q.b &&& namedB q.op = q'.b &&& namedB q.op :=
  ⟨⟨0x1, 5, 0⟩, ⟨0x1, 0xFFFFFFE00000000005, 0xFFFFFFFFFFFFFFFF⟩, by decide⟩

/-- `StepRunsTheDecodedRequest`. -/
theorem witness_accepting_edge : let s := at1 none ⟨false, true, r1, false⟩
    s.slot = none ∧ s.offerBroken = false ∧ s.pins.rst = false ∧ s.pins.reqValid = true := by decide

/-- `FetchWordIsRunByTheNextStep`. -/
theorem witness_fetch_word : decodeTableWord 144 0 = some .reserved0 := by decide

/-- `EveryInstructionCompletesAtAnIdleBlock` and every statement of a result: an idle block. -/
theorem witness_idle : State.reset.slot = none := rfl

/-- `FullSlotTurnsEveryRequestAway`. -/
theorem witness_full : (at1 (some ⟨r1Response, 0, 0⟩) ⟨false, true, r1, false⟩).slot ≠ none := by decide

/-- `B32decAnswersItsValueOrTheLeftmostBadCharacter`, all nine good, and `Base32IsABijection`. -/
theorem witness_good_code : ∀ k < 9, idx (charAt 0x7A5A7A5A303930397A k) ≠ none := by decide
/-- The same, the first character bad. -/
theorem witness_bad_first : (∀ j < 0, idx (charAt 0x49303030303030304C j) ≠ none)
    ∧ idx (charAt 0x49303030303030304C 0) = none := by decide
/-- The same, the last character bad. -/
theorem witness_bad_last : (∀ j < 8, idx (charAt 0x30303030303030302D j) ≠ none)
    ∧ idx (charAt 0x30303030303030302D 8) = none := by decide

/-- `DecodingIgnoresLetterCase`: a code that changes under either function. -/
theorem witness_letter_case : statusCode (respond (.b32dec 0x51376B483262425966)) = 0
    ∧ mapCode upper 0x51376B483262425966 ≠ 0x51376B483262425966
    ∧ mapCode lower 0x51376B483262425966 ≠ 0x51376B483262425966 := by decide

/-- The statements about an accepted pair, at the ends of both intervals. -/
theorem witness_within : Within 90 lit90 ∧ Within 90 litNeg90 ∧ Within 180 lit180 ∧ Within 180 litNeg180 := by
  decide +kernel
/-- The clauses of the statements about a rejected pair: one unit in the last place outside, and a NaN. -/
theorem witness_outside : ¬ Within 90 0x4056800000000001 ∧ ¬ Within 180 0xC066800000000001
    ∧ ¬ Within 90 0x7FF8000000000000 := by decide +kernel

/-- `QuantizersRejectExactlyWhatCvalRejects`, both clauses. -/
theorem witness_cval_status : statusCode (respond (.cval lit90 lit180)) = 0
    ∧ statusCode (respond (.cval 0x4056800000000001 lit180)) ≠ 0 := by decide

/-- `CosineIsBoundedOffThePoles`. -/
theorem witness_cosine : isFinite lit89 = true ∧ |val lit89| ≤ 89 := by decide +kernel

/-- `QuantizerIntermediatesStayInBounds`: a band that is not polar, at the edge of the south cap. -/
theorem witness_not_polar : polar params (23302#22).toNat = false := by decide +kernel

/-- `MqdecSharesTheUniformBits`: polar cells at the edge of either cap. -/
theorem witness_polar : (23301#22).toNat ≤ 23301 ∧ 4171002 ≤ (4171002#22).toNat := by decide

/-- `ReservedCodesAnswerIllegalOp`: the first and the last of the codes. -/
theorem witness_reserved : (0x0#4 = 0x0 ∨ 0xA#4 ≤ 0x0#4) ∧ 0xA#4 ≤ 0xA#4 ∧ 0xA#4 ≤ 0xF#4 := by decide

/-- `OkResponsesDriveUnnamedBitsToZero`. -/
theorem witness_ok : respondTo r1 = .ok 2097152 4194304 := by decide +kernel

/-- `StatusesAreThoseOfTheTable` and `InfoIsThatOfTheTable`: every status. -/
theorem witness_statuses : [statusCode (respondTo r1), statusCode (respondTo ⟨0x7, 0x4056C00000000000, 0⟩),
    statusCode (respondTo ⟨0x2, 0, 0⟩), statusCode (respondTo ⟨0xF, 0, 0⟩)] = [0, 1, 3, 4] := by decide

/-- `ResetEdgeEmptiesTheSlot`. -/
theorem witness_reset_edge : (at1 (some ⟨r1Response, 3, 0⟩) ⟨true, true, r1, true⟩).pins.rst = true := by decide

/-- `AcceptanceIsTheHandshake`. -/
theorem witness_handshake : (at1 none ⟨false, true, r1, false⟩).offerBroken = false := by decide

/-- `WaitingResponseIsHeld`: an OK response. -/
theorem witness_waiting : let s := at1 (some ⟨r1Response, 0, 0⟩) ⟨false, true, r1, false⟩
    s.portsOut.rspValid = true ∧ s.pins.rspReady = false ∧ s.offerBroken = false := by decide

/-- The same, an error response. -/
theorem witness_waiting_error : let s := at1 (some ⟨illegalResponse 0xF, 0, 0⟩) ⟨false, false, r1, false⟩
    s.portsOut.rspValid = true ∧ s.pins.rspReady = false ∧ s.offerBroken = false := by decide

/-- `HandOverEmptiesTheSlot`. -/
theorem witness_hand_over : let s := at1 (some ⟨r1Response, 0, 0⟩) ⟨false, true, r1, true⟩
    s.portsOut.rspValid = true ∧ s.pins.rspReady = true ∧ s.offerBroken = false := by decide

/-- `AcceptedRequestIsAnsweredAfterItsLatency`: one cycle of latency left, the response left standing for an edge, and
the next request raised at the second edge. -/
theorem witness_latency : let s : State := ⟨some ⟨r1Response, 1, 0⟩,
      [⟨false, false, r1, true⟩, ⟨false, true, r1, false⟩, ⟨false, true, r1, true⟩], none, 0⟩
    (∀ p' ∈ s.stimulus.take 3, p'.rst = false) ∧ HoldsOffer s.offer (s.stimulus.take 3)
    ∧ (∀ p' ∈ (s.stimulus.take 2).drop 1, p'.rspReady = false)
    ∧ s.stimulus[2]? = some ⟨false, true, r1, true⟩ := by
  refine ⟨by decide, ⟨?_, ?_, ?_, trivial⟩, by decide, by decide⟩ <;> simp

/-- The same, a request already offered when the latency is over. -/
theorem witness_latency_offered :
    HoldsOffer (some r1) ((at1 (some ⟨r1Response, 0, 0⟩) ⟨false, true, r1, true⟩).stimulus.take 1) := by
  refine ⟨?_, trivial⟩
  simp

/-- `HostThatHoldsItsRequestRunsSafely`. -/
theorem witness_holding_host : let s := at1 none ⟨true, true, r1, false⟩
    (∀ p ∈ s.stimulus, p.reqValid = true ∧ p.req = r1) ∧ (s.offer = none ∨ s.offer = some r1) := by decide

/-- `EveryEdgeRefinesATransactionStep` and `EveryStepKeepsTheInvariant`: a step that answers. -/
theorem witness_step_answers : afterStep (at1 none ⟨false, true, r1, false⟩) ≠ none := by decide

/-- `EveryStepKeepsTheInvariant`: a full slot that has the invariant. -/
theorem witness_invariant : (at1 (some ⟨illegalResponse 0, 0, 0⟩) ⟨false, false, r1, true⟩).Inv where
  rsp sl h := ⟨.reserved0, by cases h; rfl⟩
  wait sl h := by cases h; exact Nat.zero_le _
  tag sl h := by cases h; exact Nat.zero_le _

/-- `ArithmeticIsCorrectlyRounded`: finite operands, a divisor that is not 0, and a sum below the bound. -/
theorem witness_arithmetic : isFinite 0x40445B3D07C84B5E = true ∧ isFinite lit180 = true ∧ val lit180 ≠ 0
    ∧ |val 0x40445B3D07C84B5E + val lit180| < 2 ^ 1024 - 2 ^ 970 := by decide +kernel

/-- The same at the bound: the largest finite datum and half a unit in its last place, a tie that goes to infinity. -/
theorem witness_arithmetic_bound : isFinite 0x7FEFFFFFFFFFFFFF = true ∧ isFinite 0x7C90000000000000 = true
    ∧ val 0x7FEFFFFFFFFFFFFF + val 0x7C90000000000000 = 2 ^ 1024 - 2 ^ 970 := by decide +kernel

/-- R11 on either side of the bound. -/
theorem test_fadd_overflows : fadd 0x7FEFFFFFFFFFFFFF 0x7C90000000000000 = 0x7FF0000000000000
    ∧ fadd 0x7FEFFFFFFFFFFFFF 0x7C8FFFFFFFFFFFFF = 0x7FEFFFFFFFFFFFFF := by decide +kernel

/-- `ComparisonsAreOfValues`: a NaN, and two finite zeros. -/
theorem witness_comparisons : isNaN 0x7FF8000000000000 = true ∧ isFinite 0x8000000000000000 = true
    ∧ isFinite 0 = true := by decide

/-- `ConversionsAreExact`: a natural number that is a value. -/
theorem witness_conversions : isFinite lit111320 = true ∧ val lit111320 = (111320 : Nat) ∧ 111320 < 2 ^ 53 := by
  decide +kernel

/-- `FormattingIsUndone`. -/
theorem witness_nine : (bytes "Q7KH2BBYF").length = 9 := by decide

end Sys2Proof.Tests
end

section
/-! PROOFS. The contents of the two tables (20_memory.md R41, R42). `ALPHA` is the ROM read at its addresses in order;
`IDX` is the search of the same ROM for a byte, and the ROM is six runs of consecutive codes at consecutive addresses,
one for each row of R42's table that is not lower case. -/

namespace Sys2Proof.Machine

/-! ### Reading the ROM in order -/

/-- Reading a memory at its addresses, in order, gives its bytes in order when no address is listed twice. -/
theorem map_memRead_fst {m : Memory} (h : (m.map Prod.fst).Nodup) :
    (m.map Prod.fst).map (memRead m) = m.map fun e => some e.2 := by
  induction m with
  | nil => rfl
  | cons e m ih =>
    obtain ⟨hfresh, htail⟩ := List.nodup_cons.1 h
    have hskip : ∀ i ∈ m.map Prod.fst, memRead (e :: m) i = memRead m i := fun i hi => by
      have hne : e.1 ≠ i := fun heq => hfresh (heq ▸ hi)
      simp [memRead, hne]
    have hhead : memRead (e :: m) e.1 = some e.2 := by simp [memRead]
    rw [List.map_cons, List.map_cons, hhead, List.map_congr_left hskip, ih htail, List.map_cons]

theorem alphaRom_addresses : alphaRom.map Prod.fst = List.range 32 := by decide

theorem alphaRom_codes : alphaRom.map (fun e => e.2.toNat)
    = "0123456789ABCDEFGHJKMNPQRSTVWXYZ".toList.map Char.toNat := by decide

/-- The `ALPHA` entries, read at the indices in order, are the bytes of the ROM in order. -/
theorem map_alpha_range :
    (List.range 32).map (fun i => alpha (BitVec.ofNat 5 i)) = alphaRom.map Prod.snd := by
  have hread : (List.range 32).map (memRead alphaRom) = alphaRom.map fun e => some e.2 := by
    rw [← alphaRom_addresses]
    exact map_memRead_fst (alphaRom_addresses ▸ List.nodup_range)
  calc (List.range 32).map (fun i => alpha (BitVec.ofNat 5 i))
      = ((List.range 32).map (memRead alphaRom)).map (·.getD 0) := by
        rw [List.map_map]
        refine List.map_congr_left fun i hi => ?_
        simp [alpha, Nat.mod_eq_of_lt (List.mem_range.1 hi)]
    _ = alphaRom.map Prod.snd := by simp [hread]

/-- Settles O10: the ROM is read at its own addresses 0 to 31 and lists the codes of the string. -/
theorem alphabetIsTheSourceString : Obligations.AlphabetIsTheSourceString := by
  unfold Obligations.AlphabetIsTheSourceString
  calc (List.range 32).map (fun i => (alpha (BitVec.ofNat 5 i)).toNat)
      = ((List.range 32).map fun i => alpha (BitVec.ofNat 5 i)).map BitVec.toNat := by simp
    _ = alphaRom.map (fun e => e.2.toNat) := by simp [map_alpha_range]
    _ = _ := alphaRom_codes

/-! ### Searching the ROM for a byte -/

/-- The address of the first entry of a memory that holds the byte `c`. -/
def byteAddress (m : Memory) (c : Byte) : Option Nat := (m.find? fun e => e.2 == c).map Prod.fst

theorem byteAddress_nil (c : Byte) : byteAddress [] c = none := rfl

theorem byteAddress_cons (e : Host.Cell) (m : Memory) (c : Byte) :
    byteAddress (e :: m) c = if e.2 = c then some e.1 else byteAddress m c := by
  by_cases h : e.2 = c <;> simp [byteAddress, h]

/-- `IDX` is the search for the upper-case form of its character: no address is lost in five bits. -/
theorem idx_toNat (c : Byte) : (idx c).map BitVec.toNat = byteAddress alphaRom (upper c) := by
  unfold idx byteAddress
  cases hfind : alphaRom.find? (fun e => e.2 == upper c) with
  | none => rfl
  | some e =>
    have haddr : e.1 ∈ List.range 32 :=
      alphaRom_addresses ▸ List.mem_map_of_mem (List.mem_of_find?_eq_some hfind)
    simp [Nat.mod_eq_of_lt (List.mem_range.1 haddr)]

/-- `n` entries with consecutive codes at consecutive addresses, from the address `i` and the code `code` on. -/
def codeRun (i code : Nat) : Nat → Memory
  | 0 => []
  | n + 1 => (i, BitVec.ofNat 8 code) :: codeRun (i + 1) (code + 1) n

/-- A search that starts with a run finds a byte of the run at its distance from the first code, and goes on after the
run with any other byte. -/
theorem byteAddress_codeRun_append (i code n : Nat) (m : Memory) (c : Byte) (h : code + n ≤ 256) :
    byteAddress (codeRun i code n ++ m) c =
      if code ≤ c.toNat ∧ c.toNat < code + n then some (i + (c.toNat - code)) else byteAddress m c := by
  induction n generalizing i code with
  | zero =>
    have hout : ¬ (code ≤ c.toNat ∧ c.toNat < code + 0) := by omega
    rw [if_neg hout, codeRun, List.nil_append]
  | succ n ih =>
    have hcode : BitVec.ofNat 8 code = c ↔ c.toNat = code := by
      rw [← BitVec.toNat_inj, BitVec.toNat_ofNat, Nat.mod_eq_of_lt (by omega), eq_comm]
    rw [codeRun, List.cons_append, byteAddress_cons, ih _ _ (by omega)]
    by_cases heq : c.toNat = code
    · have hin : code ≤ c.toNat ∧ c.toNat < code + (n + 1) := by omega
      rw [if_pos (hcode.2 heq), if_pos hin, heq, Nat.sub_self, Nat.add_zero]
    · have hrest : (code + 1 ≤ c.toNat ∧ c.toNat < code + 1 + n)
          ↔ (code ≤ c.toNat ∧ c.toNat < code + (n + 1)) := by omega
      rw [if_neg (mt hcode.1 heq)]
      simp only [hrest]
      split
      · congr 1
        omega
      · rfl

/-- The six runs of the alphabet: the digits, and the letters cut at the absent `I`, `L`, `O` and `U`. -/
theorem alphaRom_eq_runs : alphaRom = codeRun 0 0x30 10 ++ (codeRun 10 0x41 8 ++ (codeRun 18 0x4A 2
    ++ (codeRun 20 0x4D 2 ++ (codeRun 22 0x50 5 ++ (codeRun 27 0x56 5 ++ []))))) := rfl

theorem byteAddress_alphaRom (c : Byte) : byteAddress alphaRom c =
    if 0x30 ≤ c.toNat ∧ c.toNat < 0x3A then some (0 + (c.toNat - 0x30))
    else if 0x41 ≤ c.toNat ∧ c.toNat < 0x49 then some (10 + (c.toNat - 0x41))
    else if 0x4A ≤ c.toNat ∧ c.toNat < 0x4C then some (18 + (c.toNat - 0x4A))
    else if 0x4D ≤ c.toNat ∧ c.toNat < 0x4F then some (20 + (c.toNat - 0x4D))
    else if 0x50 ≤ c.toNat ∧ c.toNat < 0x55 then some (22 + (c.toNat - 0x50))
    else if 0x56 ≤ c.toNat ∧ c.toNat < 0x5B then some (27 + (c.toNat - 0x56))
    else none := by
  rw [alphaRom_eq_runs, byteAddress_codeRun_append 0 0x30 10 _ c (by decide),
    byteAddress_codeRun_append 10 0x41 8 _ c (by decide), byteAddress_codeRun_append 18 0x4A 2 _ c (by decide),
    byteAddress_codeRun_append 20 0x4D 2 _ c (by decide), byteAddress_codeRun_append 22 0x50 5 _ c (by decide),
    byteAddress_codeRun_append 27 0x56 5 _ c (by decide), byteAddress_nil]

/-- `upper` on codes: 0x20 less on the lower-case letters (R42). -/
theorem upper_toNat (c : Byte) :
    (upper c).toNat = if 0x61 ≤ c.toNat ∧ c.toNat ≤ 0x7A then c.toNat - 0x20 else c.toNat := by
  have hcond : (0x61 ≤ c ∧ c ≤ 0x7A) ↔ (0x61 ≤ c.toNat ∧ c.toNat ≤ 0x7A) := by simp [BitVec.le_def]
  unfold upper
  by_cases h : 0x61 ≤ c.toNat ∧ c.toNat ≤ 0x7A
  · rw [if_pos (hcond.2 h), if_pos h]
    bv_omega
  · rw [if_neg (mt hcond.1 h), if_neg h]

/-- Settles O11: the search meets the six runs of the ROM at the upper-case form of the byte, so a letter of either
case is found in the run of its upper-case row. In each case `hrows` says that no row of the other case lists the byte,
and what stays is to compare the remaining rows one by one. -/
theorem inverseTableIsAsWrittenOut : Obligations.InverseTableIsAsWrittenOut := by
  intro c
  rw [idx_toNat, byteAddress_alphaRom, upper_toNat]
  by_cases hlower : 0x61 ≤ c.toNat ∧ c.toNat ≤ 0x7A
  · have hrows (lo hi : Nat) (_ : hi ≤ 0x60) : ¬ (lo ≤ c.toNat ∧ c.toNat ≤ hi) := by omega
    simp only [if_pos hlower, hrows, Nat.reduceLeDiff, if_false]
    grind
  · have hrows (lo hi : Nat) (_ : 0x61 ≤ lo) (_ : hi ≤ 0x7A) : ¬ (lo ≤ c.toNat ∧ c.toNat ≤ hi) := by omega
    simp only [hrows, Nat.reduceLeDiff, if_false]
    grind

end Sys2Proof.Machine
end

section
/-! PROOFS. What the operation code makes of the operands (30_encoding.md R63, R64, R66): the decoder reads only the
bits that R63 names, and a reserved code is answered with `IllegalOp` whatever the operands hold. -/

namespace Sys2Proof.Machine

/-! ### The decoder reads the named bits only -/

/-- A mask that holds the low `n` bits does not change what is read from them. -/
theorem extractLsb'_and_allOnes {w n : Nat} (h : n ≤ w) (v : BitVec w) :
    (v &&& (BitVec.allOnes n).setWidth w).extractLsb' 0 n = v.extractLsb' 0 n := by
  ext i hi
  have hiw : i < w := by omega
  simp [hi, hiw]

theorem operandU45_and_mask (a : BitVec 72) : operandU45 (a &&& 0x1FFFFFFFFFFF) = operandU45 a :=
  extractLsb'_and_allOnes (by decide) a

theorem operandF64_and_mask (a : BitVec 72) : operandF64 (a &&& 0xFFFFFFFFFFFFFFFF) = operandF64 a :=
  extractLsb'_and_allOnes (by decide) a

theorem operandU22_and_mask (a : BitVec 72) : operandU22 (a &&& 0x3FFFFF) = operandU22 a :=
  extractLsb'_and_allOnes (by decide) a

theorem operandU23_and_mask (b : BitVec 64) : operandU23 (b &&& 0x7FFFFF) = operandU23 b :=
  extractLsb'_and_allOnes (by decide) b

theorem code_and_mask (a : BitVec 72) : a &&& 0xFFFFFFFFFFFFFFFFFF = a := BitVec.and_allOnes

theorem lon_and_mask (b : BitVec 64) : b &&& 0xFFFFFFFFFFFFFFFF = b := BitVec.and_allOnes

/-- A request with its unnamed operand bits driven to zero, as R64 asks of a host. -/
def namedBits (q : Request) : Request where
  op := q.op
  a := q.a &&& namedA q.op
  b := q.b &&& namedB q.op

/-- Driving the unnamed bits to zero does not change what a request asks for: in every row of the operation-code table
the operands taken are slices under the masks of that row. -/
theorem decode_namedBits (q : Request) : decode (namedBits q) = decode q := by
  obtain ⟨op, a, b⟩ := q
  unfold decode namedBits
  dsimp only
  split
  case h_2 => exact congrArg Instr.b32enc (operandU45_and_mask a)
  case h_3 => exact congrArg Instr.b32dec (code_and_mask a)
  case h_4 => exact congrArg₂ Instr.uqenc (operandF64_and_mask a) (lon_and_mask b)
  case h_5 => exact congrArg₂ Instr.uqdec (operandU22_and_mask a) (operandU23_and_mask b)
  case h_6 => exact congrArg₂ Instr.mqenc (operandF64_and_mask a) (lon_and_mask b)
  case h_7 => exact congrArg₂ Instr.mqdec (operandU22_and_mask a) (operandU23_and_mask b)
  case h_8 => exact congrArg₂ Instr.cval (operandF64_and_mask a) (lon_and_mask b)
  case h_9 => exact congrArg Instr.unpack (operandU45_and_mask a)
  case h_10 => exact congrArg₂ Instr.pack (operandU22_and_mask a) (operandU23_and_mask b)
  -- the seven reserved codes take no operand
  all_goals rfl

/-- Settles O3: the two requests have the same named bits, and those are all that the decoder reads. -/
theorem unnamedOperandBitsAreIgnored : Obligations.UnnamedOperandBitsAreIgnored := by
  intro q q' s hop ha hb
  have hnamed : namedBits q = namedBits q' := by
    rw [namedBits, namedBits, ← hop, ha, hb]
  calc exec (decode q) s
      = exec (decode (namedBits q)) s := by rw [decode_namedBits]
    _ = exec (decode (namedBits q')) s := by rw [hnamed]
    _ = exec (decode q') s := by rw [decode_namedBits]

/-! ### The reserved codes -/

/-- An idle block answers an instruction with its response. -/
theorem answers_respond {s : State} (h : s.slot = none) (i : Instr) : Answers i s (respond i) :=
  ⟨Config.latency s.draws, s.draws, by rw [exec_eq_accept, accept_idle _ h, State.filled]⟩

/-- The seven codes of R66. -/
theorem reserved_codes {op : BitVec 4} (h : op = 0x0 ∨ 0xA ≤ op) :
    op = 0x0 ∨ op = 0xA ∨ op = 0xB ∨ op = 0xC ∨ op = 0xD ∨ op = 0xE ∨ op = 0xF := by
  bv_omega

/-- A reserved code is answered alike for all operands: the code in `info[3:0]`, and zero above it (R66). -/
theorem respond_reserved {op : BitVec 4} (h : op = 0x0 ∨ 0xA ≤ op) (a : BitVec 72) (b : BitVec 64) :
    respond (decode ⟨op, a, b⟩) = .error .illegalOp (0#8 ++ op) := by
  rcases reserved_codes h with rfl | rfl | rfl | rfl | rfl | rfl | rfl <;> rfl

/-- Settles O40: an idle block answers what it responds, and the response to a reserved code is its `IllegalOp`. -/
theorem reservedCodesAnswerIllegalOp : Obligations.ReservedCodesAnswerIllegalOp := by
  intro op a b s hidle hop
  rw [← respond_reserved hop a b]
  exact answers_respond hidle (decode ⟨op, a, b⟩)

end Sys2Proof.Machine
end

section
/-! PROOFS. The Base32 codec (40_base32.md R91, R94). The encoder's digit `j` is its value shifted right by `5 j`, and
reversing the digits and packing them leftmost on top puts it at character `8 - j`. The decoder's loop takes in a
stretch of characters of the alphabet whole, so it ends at the end of the code or at the leftmost other character. -/

namespace Sys2Proof.Machine

/-! ### Characters of a code -/

theorem chars_length (f : Code9) : (chars f).length = 9 := by simp [chars]

theorem chars_getElem (f : Code9) {k : Nat} (hk : k < (chars f).length) : (chars f)[k] = charAt f k := by
  simp [chars]

/-- A statement about the first `n` characters of a code, position by position. -/
theorem forall_mem_take_chars {f : Code9} {n : Nat} {P : Byte → Prop} (h : ∀ k < n, P (charAt f k)) :
    ∀ c ∈ (chars f).take n, P c := by
  intro c hc
  obtain ⟨k, hk, rfl⟩ := List.mem_take_iff_getElem.1 hc
  rw [chars_getElem]
  exact h k (by omega)

/-- Character `k` of a code is what stands at place `k` of the nine packed characters (R43, R68). -/
theorem charAt_packChars {cs : List Byte} (h : cs.length = 9) {k : Nat} (hk : k < cs.length) :
    charAt (packChars cs) k = cs[k] := by
  have hk' : k < (chars (packChars cs)).length := by rwa [chars_packChars h]
  rw [← chars_getElem _ hk']
  simp only [chars_packChars h]

/-! ### `B32ENC` -/

/-- The low five bits, by R91's mask and by width. -/
theorem setWidth_and_31 (t : U45) : (t &&& 31).setWidth 5 = t.setWidth 5 := by
  have hmask : (31 : U45).setWidth 5 = BitVec.allOnes 5 := rfl
  rw [BitVec.setWidth_and, hmask, BitVec.and_allOnes]

/-- R91's loop as a formula: digit `j` is the low five bits of the value shifted right by `5 j`. -/
theorem digits_eq_map_range (n : Nat) (t : U45) :
    digits n t = (List.range n).map fun j => (t >>> (5 * j)).setWidth 5 := by
  induction n generalizing t with
  | zero => rfl
  | succ n ih =>
    have hshift (j : Nat) : t >>> 5 >>> (5 * j) = t >>> (5 * (j + 1)) := by
      rw [← BitVec.shiftRight_add, Nat.mul_succ, Nat.add_comm]
    rw [digits, ih, setWidth_and_31, List.range_succ_eq_map]
    simp [hshift]

/-- The symbol of digit `j` is character `8 - j` of the code, so that the least significant is rightmost. -/
theorem charAt_codeOf (v : U45) {j : Nat} (hj : j < 9) :
    charAt (codeOf v) (8 - j) = alpha ((v >>> (5 * j)).setWidth 5) := by
  have hlen : ((digits 9 v).map alpha).reverse.length = 9 := by simp [digits_length]
  have hplace : 9 - 1 - (8 - j) = j := by omega
  rw [codeOf, charAt_packChars hlen (by omega)]
  simp [digits_eq_map_range, List.getElem_reverse, hplace]

theorem respond_b32enc (v : U45) : respond (.b32enc v) = .ok (codeOf v) 0 := rfl

/-- Settles O12: the idle block answers the code of the value, whose characters are the symbols of its digits. -/
theorem b32encAnswersItsNineSymbols : Obligations.B32encAnswersItsNineSymbols := by
  intro a b s hidle
  refine ⟨rfl, codeOf (a.extractLsb' 0 45), ?_, fun j hj => charAt_codeOf _ hj⟩
  rw [← respond_b32enc]
  exact answers_respond hidle _

/-! ### `B32DEC` -/

/-- One pass of R94's loop over a character of the alphabet: `value*32 + symbolIndex`. -/
def appendSymbol (value : Nat) (c : Byte) : Nat := value * 32 + ((idx c).getD 0).toNat

theorem appendSymbol_of_idx {c : Byte} {i : BitVec 5} (h : idx c = some i) (value : Nat) :
    appendSymbol value c = value * 32 + i.toNat := by simp [appendSymbol, h]

/-- The loop takes in a stretch of characters of the alphabet and stands behind it with their value. -/
theorem decodeChars_append {pre : List Byte} (hgood : ∀ c ∈ pre, idx c ≠ none) (rest : List Byte) (k value : Nat) :
    decodeChars (pre ++ rest) k value = decodeChars rest (k + pre.length) (pre.foldl appendSymbol value) := by
  induction pre generalizing k value with
  | nil => rfl
  | cons c cs ih =>
    obtain ⟨hc, hcs⟩ := List.forall_mem_cons.1 hgood
    obtain ⟨i, hi⟩ := Option.ne_none_iff_exists'.1 hc
    calc decodeChars (c :: (cs ++ rest)) k value
        = decodeChars (cs ++ rest) (k + 1) (appendSymbol value c) := by
          rw [decodeChars_good hi, appendSymbol_of_idx hi]
      _ = decodeChars rest (k + 1 + cs.length) (cs.foldl appendSymbol (appendSymbol value c)) := ih hcs _ _
      _ = _ := by rw [List.length_cons, List.foldl_cons, Nat.add_assoc, Nat.add_comm 1]

/-- R95's bound: `n` characters take a value below `m` to one below `m * 32^n`. -/
theorem foldl_appendSymbol_lt (cs : List Byte) {value m : Nat} (h : value < m) :
    cs.foldl appendSymbol value < m * 32 ^ cs.length := by
  induction cs generalizing value m with
  | nil => simpa using h
  | cons c cs ih =>
    have hstep : appendSymbol value c < m * 32 := by
      have hsym := ((idx c).getD 0).isLt
      unfold appendSymbol
      omega
    calc cs.foldl appendSymbol (appendSymbol value c)
        < m * 32 * 32 ^ cs.length := ih hstep
      _ = m * 32 ^ (c :: cs).length := by rw [List.length_cons, pow_succ', Nat.mul_assoc]

/-- The value of nine characters fits in 45 bits (R95). -/
theorem foldl_appendSymbol_chars_lt (code : Code9) : (chars code).foldl appendSymbol 0 < 2 ^ 45 := by
  have h := foldl_appendSymbol_lt (chars code) Nat.one_pos
  rwa [chars_length] at h

/-- `B32DEC` of nine characters of the alphabet (R94). -/
theorem respond_b32dec_good {code : Code9} (h : ∀ k < 9, idx (charAt code k) ≠ none) :
    respond (.b32dec code) = valueResult (BitVec.ofNat 45 ((chars code).foldl appendSymbol 0)) := by
  have hgood : ∀ c ∈ chars code, idx c ≠ none := by simpa [chars] using h
  calc respond (.b32dec code)
      = decodeChars (chars code ++ []) 0 0 := by rw [List.append_nil]; rfl
    _ = _ := decodeChars_append hgood [] 0 0

/-- `B32DEC` of a code whose leftmost character outside the alphabet is character `k` (R94). -/
theorem respond_b32dec_bad {code : Code9} {k : Nat} (hk : k < 9) (hgood : ∀ j < k, idx (charAt code j) ≠ none)
    (hbad : idx (charAt code k) = none) :
    respond (.b32dec code) = .error .invalidCharacter (charInfo (charAt code k) k) := by
  have hk' : k < (chars code).length := by rwa [chars_length]
  have hsplit : chars code = (chars code).take k ++ charAt code k :: (chars code).drop (k + 1) := by
    rw [← chars_getElem code hk', List.cons_getElem_drop_succ, List.take_append_drop]
  have hlen : 0 + ((chars code).take k).length = k := by
    rw [Nat.zero_add, List.length_take_of_le hk'.le]
  calc respond (.b32dec code)
      = decodeChars ((chars code).take k ++ charAt code k :: (chars code).drop (k + 1)) 0 0 := by
        rw [← hsplit]; rfl
    _ = _ := by rw [decodeChars_append (forall_mem_take_chars hgood), hlen, decodeChars_bad hbad]

/-- Settles O13: the idle block answers what the loop ends with, and a value below `2^45` goes into the result whole. -/
theorem b32decAnswersItsValueOrTheLeftmostBadCharacter :
    Obligations.B32decAnswersItsValueOrTheLeftmostBadCharacter := by
  intro a b s hidle
  have hanswers := answers_respond hidle (.b32dec a)
  refine ⟨rfl, fun hgood => ?_, fun k hk hgood hbad => ?_⟩
  · refine ⟨BitVec.ofNat 45 ((chars a).foldl appendSymbol 0), ?_, ?_⟩
    · rwa [respond_b32dec_good hgood] at hanswers
    · rw [BitVec.toNat_ofNat, Nat.mod_eq_of_lt (foldl_appendSymbol_chars_lt a), chars, List.foldl_map]
      rfl
  · rwa [respond_b32dec_bad hk hgood hbad] at hanswers

end Sys2Proof.Machine
end

section
/-! PROOFS. The range check (43_coordinate_validator.md R160, R162, R163). The comparisons are of values where neither
operand is a NaN; an infinity is beyond every finite datum, so what lies between two finite bounds is finite. -/

namespace Sys2Proof.Machine

/-! ### The order of the data -/

theorem val_le_val_iff (a b : F64) : val a ≤ val b ↔ grid a ≤ grid b := by
  have hunits : (0 : ℚ) < gridUnits := by exact_mod_cast gridUnits_pos
  rw [val, val, div_le_div_iff_of_pos_right hunits, Int.cast_le]

theorem fle_iff (a b : F64) : fle a b = true ↔ isNaN a = false ∧ isNaN b = false ∧ val a ≤ val b := by
  simp [fle, val_le_val_iff, and_assoc]

theorem isFinite_iff (a : F64) : isFinite a = true ↔ magBits a < infBits := by simp [isFinite]

/-- A finite datum is no NaN, by the order of the patterns (R10). -/
theorem isNaN_eq_false_of_isFinite {a : F64} (h : isFinite a = true) : isNaN a = false := by
  simpa [isNaN] using ((isFinite_iff a).1 h).le

/-- What is neither finite nor a NaN has the pattern of infinity (R10). -/
theorem magBits_eq_infBits {a : F64} (hnan : isNaN a = false) (hfin : ¬ isFinite a = true) : magBits a = infBits := by
  have hle : magBits a ≤ infBits := by simpa [isNaN] using hnan
  exact le_antisymm hle (not_lt.1 (mt (isFinite_iff a).2 hfin))

/-- Magnitudes are in the order of their patterns. -/
theorem gridMag_lt_of_magBits_lt {a b : F64} (h : magBits a < magBits b) : gridMag a < gridMag b := by
  obtain ⟨k, c, hmag, hc, hk, hgrid⟩ := exists_gridMag a
  obtain ⟨k', c', hmag', hc', hk', hgrid'⟩ := exists_gridMag b
  rw [hmag, hmag'] at h
  rw [hgrid, hgrid']
  rcases lt_trichotomy k k' with hlt | rfl | hgt
  · have hge : hiddenBit ≤ c' := hk'.resolve_left (by omega)
    calc c * 2 ^ k < 2 * hiddenBit * 2 ^ k := Nat.mul_lt_mul_of_pos_right hc (by positivity)
      _ = hiddenBit * 2 ^ (k + 1) := by rw [pow_succ', mul_comm 2 hiddenBit, mul_assoc]
      _ ≤ c' * 2 ^ k' := Nat.mul_le_mul hge (Nat.pow_le_pow_right (by decide) hlt)
  · exact Nat.mul_lt_mul_of_pos_right (Nat.add_lt_add_iff_left.1 h) (by positivity)
  · have hge : hiddenBit ≤ c := hk.resolve_left (by omega)
    have hstep : (k' + 1) * hiddenBit ≤ k * hiddenBit := Nat.mul_le_mul_right _ hgt
    rw [Nat.succ_mul] at hstep
    omega

/-- A datum that is no NaN and lies between two finite data is finite. -/
theorem isFinite_of_between {lo hi a : F64} (hlo : isFinite lo = true) (hhi : isFinite hi = true)
    (hnan : isNaN a = false) (hge : val lo ≤ val a) (hle : val a ≤ val hi) : isFinite a = true := by
  by_contra hfin
  rw [isFinite_iff, ← magBits_eq_infBits hnan hfin] at hlo hhi
  have hlo' := gridMag_lt_of_magBits_lt hlo
  have hhi' := gridMag_lt_of_magBits_lt hhi
  rw [val_le_val_iff] at hge hle
  rw [← natAbs_grid, ← natAbs_grid] at hlo' hhi'
  omega

/-- Two comparisons with finite bounds accept exactly the finite data of the closed interval. -/
theorem fge_and_fle_iff {lo hi : F64} (hlo : isFinite lo = true) (hhi : isFinite hi = true) (a : F64) :
    (fge a lo && fle a hi) = true ↔ isFinite a = true ∧ val lo ≤ val a ∧ val a ≤ val hi := by
  rw [Bool.and_eq_true, fge, fle_iff, fle_iff]
  constructor
  · rintro ⟨⟨-, hnan, hge⟩, -, -, hle⟩
    exact ⟨isFinite_of_between hlo hhi hnan hge hle, hge, hle⟩
  · rintro ⟨hfin, hge, hle⟩
    have hnan := isNaN_eq_false_of_isFinite hfin
    exact ⟨⟨isNaN_eq_false_of_isFinite hlo, hnan, hge⟩, hnan, isNaN_eq_false_of_isFinite hhi, hle⟩

/-! ### The bounds of the axes -/

theorem val_lit90 : val lit90 = 90 := by decide +kernel
theorem val_litNeg90 : val litNeg90 = -90 := by decide +kernel
theorem val_lit180 : val lit180 = 180 := by decide +kernel
theorem val_litNeg180 : val litNeg180 = -180 := by decide +kernel

theorem latBad_eq_false_iff (lat : F64) : latBad lat = false ↔ Within 90 lat := by
  rw [latBad, Bool.not_eq_false', fge_and_fle_iff (by decide) (by decide), val_litNeg90, val_lit90]

theorem lonBad_eq_false_iff (lon : F64) : lonBad lon = false ↔ Within 180 lon := by
  rw [lonBad, Bool.not_eq_false', fge_and_fle_iff (by decide) (by decide), val_litNeg180, val_lit180]

/-- The `info` bits of the range check are those of the axes out of bounds (R161, R201). -/
theorem rangeInfo_eq_outOfRangeInfo (lat lon : F64) :
    rangeInfo (latBad lat) (lonBad lon) = outOfRangeInfo lat lon := by
  simp only [outOfRangeInfo, ← latBad_eq_false_iff, ← lonBad_eq_false_iff]
  cases latBad lat <;> cases lonBad lon <;> rfl

/-- The range check lets a pair within the bounds through (R160). -/
theorem rangeChecked_of_within {lat lon : F64} (hlat : Within 90 lat) (hlon : Within 180 lon) (r : Response) :
    rangeChecked lat lon r = r :=
  rangeChecked_ok ((latBad_eq_false_iff lat).2 hlat) ((lonBad_eq_false_iff lon).2 hlon) r

/-- The range check answers every other pair itself, whatever response stands behind it (R161). -/
theorem rangeChecked_of_not_within {lat lon : F64} (h : ¬ (Within 90 lat ∧ Within 180 lon)) (r : Response) :
    rangeChecked lat lon r = .error .rangeError (outOfRangeInfo lat lon) := by
  have hbad : latBad lat = true ∨ lonBad lon = true := by
    rwa [← latBad_eq_false_iff, ← lonBad_eq_false_iff, not_and_or, Bool.not_eq_false, Bool.not_eq_false] at h
  rw [rangeChecked_bad hbad, rangeInfo_eq_outOfRangeInfo]

end Sys2Proof.Machine
end

section
/-! PROOFS. The uniform quantizer (41_uniform_quantizer.md R111, R115) in the default `NUMERICS`, where the operations
of a rule are those of binary64. -/

namespace Sys2Proof.Machine

/-! ### `UQENC` -/

theorem fractionIndex_binary64 (off span cells : F64) (top : Nat) (x : F64) :
    fractionIndex binary64 off span cells top x =
      min (f2n (ffloor (fmul (fdiv (fadd x off) span) cells))) top := by
  simp only [fractionIndex, binary64]

theorem uqLatIndex_binary64 (lat : F64) : uqLatIndex binary64 lat =
    min (f2n (ffloor (fmul (fdiv (fadd lat lit90) lit180) litLatCells))) 4194303 := by
  rw [uqLatIndex, fractionIndex_binary64, Config.latMax]

theorem uqLonIndex_binary64 (lon : F64) : uqLonIndex binary64 lon =
    min (f2n (ffloor (fmul (fdiv (fadd lon lit180) lit360) litLonCells))) 8388607 := by
  rw [uqLonIndex, fractionIndex_binary64, Config.lonMax]

/-- The clamp keeps latIndex inside its 22 bits, so none is lost (R111). -/
theorem toNat_ofNat_uqLatIndex (lat : F64) :
    (BitVec.ofNat 22 (uqLatIndex binary64 lat)).toNat = uqLatIndex binary64 lat := by
  have hle : uqLatIndex binary64 lat ≤ 4194303 := fractionIndex_le ..
  rw [BitVec.toNat_ofNat, Nat.mod_eq_of_lt (by omega)]

/-- The clamp keeps lonIndex inside its 23 bits, so none is lost (R111). -/
theorem toNat_ofNat_uqLonIndex (lon : F64) :
    (BitVec.ofNat 23 (uqLonIndex binary64 lon)).toNat = uqLonIndex binary64 lon := by
  have hle : uqLonIndex binary64 lon ≤ 8388607 := fractionIndex_le ..
  rw [BitVec.toNat_ofNat, Nat.mod_eq_of_lt (by omega)]

/-- `UQENC` of a pair in range answers its cell (R111). -/
theorem respond_uqenc_of_within {lat lon : F64} (hlat : Within 90 lat) (hlon : Within 180 lon) :
    respond (.uqenc lat lon) =
      cellResult (BitVec.ofNat 22 (uqLatIndex binary64 lat)) (BitVec.ofNat 23 (uqLonIndex binary64 lon)) :=
  rangeChecked_of_within hlat hlon _

/-- `UQENC` of a pair out of range answers what the range check does (R111). -/
theorem respond_uqenc_of_not_within {lat lon : F64} (h : ¬ (Within 90 lat ∧ Within 180 lon)) :
    respond (.uqenc lat lon) = .error .rangeError (outOfRangeInfo lat lon) :=
  rangeChecked_of_not_within h _

/-- Settles O19: the idle block answers what the range check lets through or raises, and the two clamped floors fit
whole into the widths of the result. -/
theorem uqencAnswersTheClampedFloors : Obligations.UqencAnswersTheClampedFloors := by
  intro a lon s hidle
  have hanswers := answers_respond hidle (.uqenc (a.extractLsb' 0 64) lon)
  refine ⟨rfl, fun hlat hlon => ?_, fun hout => ?_⟩
  · refine ⟨BitVec.ofNat 22 (uqLatIndex binary64 (a.extractLsb' 0 64)), BitVec.ofNat 23 (uqLonIndex binary64 lon),
      ?_, ?_, ?_⟩
    · rwa [respond_uqenc_of_within hlat hlon] at hanswers
    · rw [toNat_ofNat_uqLatIndex, uqLatIndex_binary64]
    · rw [toNat_ofNat_uqLonIndex, uqLonIndex_binary64]
  · rwa [respond_uqenc_of_not_within hout] at hanswers

/-! ### `UQDEC` -/

theorem toF64_binary64 (a : F64) : binary64.toF64 a = a := rfl

/-- The model's clamp is `fclamp` in the words of R11. -/
theorem clampTo_binary64 (lo hi a : F64) : clampTo binary64 lo hi a = fclamp a lo hi := rfl

theorem fractionCentre_binary64 (lo span cells : F64) (i : Nat) : fractionCentre binary64 lo span cells i =
    fadd lo (fmul (fdiv (fadd (n2f i) litHalf) cells) span) := by
  simp only [fractionCentre, binary64]

theorem uqLat_binary64 (i : U22) : uqLat binary64 i =
    fclamp (fadd litNeg90 (fmul (fdiv (fadd (n2f i.toNat) litHalf) litLatCells) lit180)) litNeg90 lit90 := by
  rw [uqLat, clampTo_binary64, fractionCentre_binary64, toF64_binary64]

theorem uqLon_binary64 (j : U23) : uqLon binary64 j =
    fclamp (fadd litNeg180 (fmul (fdiv (fadd (n2f j.toNat) litHalf) litLonCells) lit360)) litNeg180 lit180 := by
  rw [uqLon, clampTo_binary64, fractionCentre_binary64, toF64_binary64]

theorem respond_uqdec (i : U22) (j : U23) :
    respond (.uqdec i j) = .ok ((uqLat binary64 i).setWidth 72) (uqLon binary64 j) := rfl

/-- Settles O23: the idle block answers the clamped centres of the cell whose indices are the low bits of the fields. -/
theorem uqdecAnswersTheClampedCentres : Obligations.UqdecAnswersTheClampedCentres := by
  intro a b s hidle
  have hanswers := answers_respond hidle (.uqdec (a.extractLsb' 0 22) (b.extractLsb' 0 23))
  simp only [respond_uqdec, uqLat_binary64, uqLon_binary64, BitVec.extractLsb'_toNat, Nat.shiftRight_zero] at hanswers
  exact ⟨rfl, hanswers⟩

end Sys2Proof.Machine
end

section
/-! PROOFS. The meter-based quantizer (42_meter_based_quantizer.md R135, R140) in the configuration of the block. The
steps that `MQENC` and `MQDEC` share (R131, R132, R134, R136) are said once, each over the one before it. -/

namespace Sys2Proof.Machine

/-! ### The shared steps -/

/-- `CELL_SIZE_M` is one datum, 20037600 over 2^22 (R131). -/
theorem cellSizeM_params : cellSizeM params = 0x40131BFE00000000 := by decide +kernel

theorem bandCenter_params (i : Nat) : bandCenter params i =
    fadd litNeg90 (fdiv (fmul (fadd (n2f i) litHalf) 0x40131BFE00000000) lit111320) := by
  rw [bandCenter, cellSizeM_params]
  simp only [params, binary64]

theorem polar_params (i : Nat) : polar params i = fgt (fabs (bandCenter params i)) lit89 := rfl

theorem metersPerDegLon_params (i : Nat) :
    metersPerDegLon params i = fmul lit111320 (fabs (cosdeg (bandCenter params i))) := by
  simp only [metersPerDegLon, params, binary64]

theorem lonCellM_params (i : Nat) :
    lonCellM params i = fdiv (fmul lit360 (metersPerDegLon params i)) litLonCells := by
  simp only [lonCellM, params, binary64]

/-! ### `MQENC` -/

theorem mqLatIndex_params (lat : F64) : mqLatIndex params lat =
    min (f2n (ffloor (fdiv (fmul (fadd lat lit90) lit111320) 0x40131BFE00000000))) 4194303 := by
  rw [mqLatIndex, cellSizeM_params, Config.latMax]
  simp only [params, binary64]

theorem mqLonIndexMetres_params (i : Nat) (lon : F64) : mqLonIndexMetres params i lon =
    min (f2n (ffloor (fdiv (fmul (fadd lon lit180) (metersPerDegLon params i)) (lonCellM params i)))) 8388607 := by
  simp only [mqLonIndexMetres, Config.lonMax, params, binary64]

/-- The hard branch of `MQENC`, the plain fraction or the metres (R134, R135). -/
theorem mqLonIndex_params (i : Nat) (lon : F64) : mqLonIndex params i lon =
    if fgt (fabs (bandCenter params i)) lit89 then uqLonIndex binary64 lon else mqLonIndexMetres params i lon := by
  rw [mqLonIndex, polar_params, params]

/-- The clamp keeps latIndex inside its 22 bits, so none is lost (R135). -/
theorem toNat_ofNat_mqLatIndex (lat : F64) :
    (BitVec.ofNat 22 (mqLatIndex params lat)).toNat = mqLatIndex params lat := by
  have hle : mqLatIndex params lat ≤ 4194303 := mqLatIndex_le ..
  rw [BitVec.toNat_ofNat, Nat.mod_eq_of_lt (by omega)]

/-- The clamp keeps lonIndex inside its 23 bits, so none is lost (R135). -/
theorem toNat_ofNat_mqLonIndex (i : Nat) (lon : F64) :
    (BitVec.ofNat 23 (mqLonIndex params i lon)).toNat = mqLonIndex params i lon := by
  have hle : mqLonIndex params i lon ≤ 8388607 := mqLonIndex_le ..
  rw [BitVec.toNat_ofNat, Nat.mod_eq_of_lt (by omega)]

/-- `MQENC` of a pair in range answers its cell, lonIndex by the clamped latIndex (R135). -/
theorem respond_mqenc_of_within {lat lon : F64} (hlat : Within 90 lat) (hlon : Within 180 lon) :
    respond (.mqenc lat lon) = cellResult (BitVec.ofNat 22 (mqLatIndex params lat))
      (BitVec.ofNat 23 (mqLonIndex params (mqLatIndex params lat) lon)) :=
  rangeChecked_of_within hlat hlon _

/-- `MQENC` of a pair out of range answers what the range check does (R135). -/
theorem respond_mqenc_of_not_within {lat lon : F64} (h : ¬ (Within 90 lat ∧ Within 180 lon)) :
    respond (.mqenc lat lon) = .error .rangeError (outOfRangeInfo lat lon) :=
  rangeChecked_of_not_within h _

/-- Settles O30: the idle block answers what the range check lets through or raises; the clamped latIndex fits whole
into its field, so the band centre of the result is the one the hard branch was taken on. -/
theorem mqencAnswersTheClampedFloors : Obligations.MqencAnswersTheClampedFloors := by
  intro a lon s hidle
  have hanswers := answers_respond hidle (.mqenc (a.extractLsb' 0 64) lon)
  refine ⟨rfl, fun hlat hlon => ?_, fun hout => ?_⟩
  · refine ⟨BitVec.ofNat 22 (mqLatIndex params (a.extractLsb' 0 64)),
      BitVec.ofNat 23 (mqLonIndex params (mqLatIndex params (a.extractLsb' 0 64)) lon), ?_, ?_, ?_⟩
    · rwa [respond_mqenc_of_within hlat hlon] at hanswers
    · rw [toNat_ofNat_mqLatIndex, mqLatIndex_params]
    · rw [toNat_ofNat_mqLatIndex, toNat_ofNat_mqLonIndex, mqLonIndex_params, uqLonIndex_binary64,
        mqLonIndexMetres_params, lonCellM_params, metersPerDegLon_params, bandCenter_params]
  · rwa [respond_mqenc_of_not_within hout] at hanswers

/-! ### `MQDEC` -/

/-- The inverse of the metres branch at the cell centre (R140). -/
theorem lonCentreMetres_params (i j : Nat) : lonCentreMetres params i j =
    fadd litNeg180 (fdiv (fmul (fadd (n2f j) litHalf) (lonCellM params i)) (metersPerDegLon params i)) := by
  simp only [lonCentreMetres, params, binary64]

theorem mqLat_params (i : U22) : mqLat params i = fclamp (bandCenter params i.toNat) litNeg90 lit90 := by
  rw [mqLat, params, toF64_binary64, clampTo_binary64]

/-- The hard branch of `MQDEC`, the same as in `MQENC` (R140). -/
theorem mqLon_params (i : U22) (j : U23) : mqLon params i j =
    fclamp
      (if fgt (fabs (bandCenter params i.toNat)) lit89 then fractionCentre binary64 litNeg180 lit360 litLonCells j.toNat
        else lonCentreMetres params i.toNat j.toNat)
      litNeg180 lit180 := by
  rw [mqLon, polar_params, params, toF64_binary64, clampTo_binary64]

theorem respond_mqdec (i : U22) (j : U23) :
    respond (.mqdec i j) = .ok ((mqLat params i).setWidth 72) (mqLon params i j) := rfl

/-- Settles O33: the idle block answers the clamped band centre and the clamped inverse steps of the cell whose indices
are the low bits of the fields. -/
theorem mqdecAnswersTheInvertedSteps : Obligations.MqdecAnswersTheInvertedSteps := by
  intro a b s hidle
  have hanswers := answers_respond hidle (.mqdec (a.extractLsb' 0 22) (b.extractLsb' 0 23))
  simp only [respond_mqdec, mqLat_params, mqLon_params, fractionCentre_binary64, lonCentreMetres_params,
    lonCellM_params, metersPerDegLon_params, bandCenter_params, BitVec.extractLsb'_toNat,
    Nat.shiftRight_zero] at hanswers
  exact ⟨rfl, hanswers⟩

end Sys2Proof.Machine
end

section
/-! PROOFS. The coordinate validator (43_coordinate_validator.md R160 to R163). -/

namespace Sys2Proof.Machine

/-- Settles O16: each bit is two comparisons with finite bounds, which only finite data between them pass; a NaN fails
both comparisons, and an infinity the one with the bound on its side. -/
theorem rangeCheckAcceptsExactlyTheClosedIntervals : Obligations.RangeCheckAcceptsExactlyTheClosedIntervals :=
  fun a => ⟨latBad_eq_false_iff a, lonBad_eq_false_iff a⟩

end Sys2Proof.Machine
end

section
/-! PROOFS. The packed cell (44_packed_cell.md R170 to R172): the 45 bits are latIndex over the 23 bits of lonIndex, so
splitting them is division by 2^23 with remainder, and packing is the sum of two disjoint parts. -/

namespace Sys2Proof.Machine

/-! ### `UNPACK` -/

theorem latIndexOf_toNat (packed : U45) : (latIndexOf packed).toNat = packed.toNat / 2 ^ 23 := by
  have hfits : packed.toNat / 2 ^ 23 < 2 ^ 22 := by omega
  rw [latIndexOf, BitVec.toNat_setWidth, BitVec.toNat_ushiftRight, Nat.shiftRight_eq_div_pow,
    Nat.mod_eq_of_lt hfits]

theorem lonIndexOf_toNat (packed : U45) : (lonIndexOf packed).toNat = packed.toNat % 2 ^ 23 := by
  have hmask : (0x7FFFFF : U45).toNat = 2 ^ 23 - 1 := rfl
  rw [lonIndexOf, BitVec.toNat_setWidth, BitVec.toNat_and, hmask, Nat.and_two_pow_sub_one_eq_mod, Nat.mod_mod]

theorem respond_unpack (packed : U45) :
    respond (.unpack packed) = .ok ((latIndexOf packed).setWidth 72) ((lonIndexOf packed).setWidth 64) := rfl

/-- Settles O37: the idle block answers the two indices, which the result fields hold whole; the low 23 bits of the
operand are those of the field it is cut from. -/
theorem unpackAnswersTheTwoIndices : Obligations.UnpackAnswersTheTwoIndices := by
  intro a b s hidle
  have hanswers := answers_respond hidle (.unpack (a.extractLsb' 0 45))
  rw [respond_unpack] at hanswers
  refine ⟨rfl, _, _, hanswers, ?_, ?_⟩
  · rw [BitVec.toNat_setWidth_of_le (by decide), latIndexOf_toNat, BitVec.extractLsb'_toNat, Nat.shiftRight_zero]
  · rw [BitVec.toNat_setWidth_of_le (by decide), lonIndexOf_toNat, BitVec.extractLsb'_toNat, Nat.shiftRight_zero,
      Nat.mod_mod_of_dvd _ (Nat.pow_dvd_pow 2 (by decide))]

/-! ### `PACK` -/

/-- lonIndex lies below the shifted latIndex, so joining the two by `|` is adding them (R172). -/
theorem packCell_toNat (i : U22) (j : U23) : (packCell i j).toNat = i.toNat * 2 ^ 23 + j.toNat := by
  have hfits : i.toNat * 2 ^ 23 < 2 ^ 45 := by omega
  rw [packCell, BitVec.toNat_or, BitVec.toNat_shiftLeft, BitVec.toNat_setWidth_of_le (by decide),
    BitVec.toNat_setWidth_of_le (by decide), Nat.shiftLeft_eq, Nat.mod_eq_of_lt hfits, ← Nat.shiftLeft_eq,
    Nat.shiftLeft_add_eq_or_of_lt j.isLt]

theorem respond_pack (i : U22) (j : U23) : respond (.pack i j) = .ok ((packCell i j).setWidth 72) 0 := rfl

/-- Settles O38: the idle block answers the packed value of the two operands, each of which is its field modulo its own
width, and the result field holds it whole. -/
theorem packAnswersThePackedValue : Obligations.PackAnswersThePackedValue := by
  intro a b s hidle
  have hanswers := answers_respond hidle (.pack (a.extractLsb' 0 22) (b.extractLsb' 0 23))
  rw [respond_pack] at hanswers
  refine ⟨rfl, _, hanswers, ?_⟩
  rw [BitVec.toNat_setWidth_of_le (by decide), packCell_toNat, BitVec.extractLsb'_toNat, BitVec.extractLsb'_toNat,
    Nat.shiftRight_zero, Nat.shiftRight_zero]

end Sys2Proof.Machine
end

section
/-! PROOFS. The outcome fields (60_exceptions.md R200, R201). A request is answered in one of four ways, one for each
status that the block produces; what `info` records is read off the way. -/

namespace Sys2Proof.Machine

/-! ### The ways a request is answered -/

/-- The rows of the tables of R200 and R201: how a request may be answered, with the operation codes that may answer it
so, and what it is about the operands that makes them. -/
inductive TableRow (q : Request) : Response → Prop
  | ok (hop : ¬ (q.op = 0x0 ∨ 0xA ≤ q.op)) (x : BitVec 72) (y : BitVec 64) : TableRow q (.ok x y)
  | rangeError (hop : q.op = 0x3 ∨ q.op = 0x5 ∨ q.op = 0x7)
      (hout : ¬ (Within 90 (q.a.extractLsb' 0 64) ∧ Within 180 q.b)) :
      TableRow q (.error .rangeError (outOfRangeInfo (q.a.extractLsb' 0 64) q.b))
  | invalidCharacter (hop : q.op = 0x2) {k : Nat} (hk : k < 9) (hbad : idx (charAt q.a k) = none)
      (hgood : ∀ j < k, idx (charAt q.a j) ≠ none) :
      TableRow q (.error .invalidCharacter (charInfo (charAt q.a k) k))
  | illegalOp (hop : q.op = 0x0 ∨ 0xA ≤ q.op) : TableRow q (.error .illegalOp (0#8 ++ q.op))

/-- The range check in front of an OK response answers with that response or with `RangeError` (R161). -/
theorem tableRow_rangeChecked {q : Request} (hop : q.op = 0x3 ∨ q.op = 0x5 ∨ q.op = 0x7) (x : BitVec 72)
    (y : BitVec 64) : TableRow q (rangeChecked (q.a.extractLsb' 0 64) q.b (.ok x y)) := by
  by_cases hin : Within 90 (q.a.extractLsb' 0 64) ∧ Within 180 q.b
  · rw [rangeChecked_of_within hin.1 hin.2]
    exact .ok (by bv_omega) x y
  · rw [rangeChecked_of_not_within hin]
    exact .rangeError hop hin

/-- A code with a character outside the alphabet has a leftmost one. -/
theorem exists_leftmost_bad {code : Code9} (h : ∃ k < 9, idx (charAt code k) = none) :
    ∃ k < 9, idx (charAt code k) = none ∧ ∀ j < k, idx (charAt code j) ≠ none := by
  obtain ⟨hk, hbad⟩ := Nat.find_spec h
  exact ⟨Nat.find h, hk, hbad, fun j hj hnone => Nat.find_min h hj ⟨hj.trans hk, hnone⟩⟩

/-- `B32DEC` answers with a value or with `InvalidCharacter` at the leftmost bad character (R94). -/
theorem tableRow_b32dec {q : Request} (hop : q.op = 0x2) : TableRow q (respond (.b32dec q.a)) := by
  by_cases hall : ∀ k < 9, idx (charAt q.a k) ≠ none
  · rw [respond_b32dec_good hall]
    exact .ok (by bv_omega) _ _
  · obtain ⟨k, hk, hbad, hgood⟩ := exists_leftmost_bad (by simpa using hall)
    rw [respond_b32dec_bad hk hgood hbad]
    exact .invalidCharacter hop hk hbad hgood

/-- The nine codes that R66 does not reserve (R62). -/
theorem named_codes {op : BitVec 4} (h : ¬ (op = 0x0 ∨ 0xA ≤ op)) :
    op = 0x1 ∨ op = 0x2 ∨ op = 0x3 ∨ op = 0x4 ∨ op = 0x5 ∨ op = 0x6 ∨ op = 0x7 ∨ op = 0x8 ∨ op = 0x9 := by
  bv_omega

/-- All that the block can answer to a request: the codes that take a pair of coordinates stand behind the range check,
`B32DEC` may meet a bad character, a reserved code is illegal, and nothing else can fail. -/
theorem respondTo_tableRow (q : Request) : TableRow q (respondTo q) := by
  obtain ⟨op, a, b⟩ := q
  by_cases hres : op = 0x0 ∨ 0xA ≤ op
  · rw [respondTo, respond_reserved hres]
    exact .illegalOp hres
  · rcases named_codes hres with rfl | rfl | rfl | rfl | rfl | rfl | rfl | rfl | rfl
    · exact .ok hres _ _
    · exact tableRow_b32dec rfl
    · exact tableRow_rangeChecked (.inl rfl) _ _
    · exact .ok hres _ _
    · exact tableRow_rangeChecked (.inr (.inl rfl)) _ _
    · exact .ok hres _ _
    · exact tableRow_rangeChecked (.inr (.inr rfl)) _ _
    · exact .ok hres _ _
    · exact .ok hres _ _

/-! ### What `info` records -/

/-- A pair that is not within both bounds has a bad axis, and the bit of that axis is set (R161). -/
theorem outOfRangeInfo_ne_zero {lat lon : F64} (h : ¬ (Within 90 lat ∧ Within 180 lon)) :
    outOfRangeInfo lat lon ≠ 0 := by
  unfold outOfRangeInfo
  split_ifs with hlat hlon
  · exact absurd ⟨hlat, hlon⟩ h
  all_goals decide

/-- Settles O43: the four ways of answering have four statuses, so each clause meets only its own, and there it asks
for the `info` with which the request was answered. -/
theorem infoIsThatOfTheTable : Obligations.InfoIsThatOfTheTable := by
  intro q r
  have hrow : TableRow q r := respondTo_tableRow q
  clear_value r
  cases hrow with
  | ok => simp [statusCode, infoField]
  | rangeError _ hout => simpa [statusCode, errorCode, infoField] using outOfRangeInfo_ne_zero hout
  | invalidCharacter _ hk hbad hgood =>
    simpa [statusCode, errorCode, infoField] using ⟨_, hk, rfl, hbad, hgood⟩
  | illegalOp => simp [statusCode, errorCode, infoField]

end Sys2Proof.Machine
end

section
/-! PROOFS. The encoding (30_encoding.md R60, R62, R63, R64): a word and its fields carry the same bits, the decoder
cuts each operand out of the field that the encoder widened it into, and widening a cut operand gives its field back
exactly where the field holds nothing above it. -/

namespace Sys2Proof.Machine

/-! ### Operands cut out of fields and put back -/

/-- A value widened into a field is cut out of it unchanged. -/
theorem extractLsb'_setWidth {m n : Nat} (h : m ≤ n) (v : BitVec m) : (v.setWidth n).extractLsb' 0 m = v := by
  ext i hi
  have hin : i < n := by omega
  simp [hi, hin]

/-- A field that holds nothing from bit `n` up is its low `n` bits, widened. -/
theorem setWidth_extractLsb' {w n : Nat} (f : BitVec w) (h : (f >>> n == 0) = true) :
    (f.extractLsb' 0 n).setWidth w = f := by
  rw [beq_iff_eq] at h
  ext i hi
  rcases Nat.lt_or_ge i n with hlow | hhigh
  · simp [hlow, hi]
  · obtain ⟨d, rfl⟩ := Nat.exists_eq_add_of_le hhigh
    have hbit : (f >>> n).getLsbD d = false := by rw [h]; simp
    rw [BitVec.getLsbD_ushiftRight] at hbit
    rw [← BitVec.getLsbD_eq_getElem, ← BitVec.getLsbD_eq_getElem, hbit]
    simp

/-- A field no bit of which is named is zero in a well-formed request. -/
theorem eq_zero_of_ushiftRight_zero {w : Nat} {f : BitVec w} (h : (f >>> 0 == 0) = true) : f = 0 := by
  simpa using h

/-! ### Requests -/

/-- The request of an instruction asks for that instruction. -/
theorem decode_encodeRequest (i : Instr) : decode (encodeRequest i) = i := by
  cases i with
  | b32enc v => exact congrArg Instr.b32enc (extractLsb'_setWidth (by decide) v)
  | b32dec code => rfl
  | uqenc lat lon => exact congrArg (Instr.uqenc · lon) (extractLsb'_setWidth (by decide) lat)
  | uqdec latIndex lonIndex =>
    exact congrArg₂ Instr.uqdec (extractLsb'_setWidth (by decide) latIndex) (extractLsb'_setWidth (by decide) lonIndex)
  | mqenc lat lon => exact congrArg (Instr.mqenc · lon) (extractLsb'_setWidth (by decide) lat)
  | mqdec latIndex lonIndex =>
    exact congrArg₂ Instr.mqdec (extractLsb'_setWidth (by decide) latIndex) (extractLsb'_setWidth (by decide) lonIndex)
  | cval lat lon => exact congrArg (Instr.cval · lon) (extractLsb'_setWidth (by decide) lat)
  | unpack packed => exact congrArg Instr.unpack (extractLsb'_setWidth (by decide) packed)
  | pack latIndex lonIndex =>
    exact congrArg₂ Instr.pack (extractLsb'_setWidth (by decide) latIndex) (extractLsb'_setWidth (by decide) lonIndex)
  | reserved0 | reservedA | reservedB | reservedC | reservedD | reservedE | reservedF => rfl

/-- Settles O1: the word carries the fields of the request whole, and the request asks for its instruction. -/
theorem decodeInvertsEncode : Obligations.DecodeInvertsEncode := by
  intro i
  rw [encode, requestOfWord_wordOfRequest, decode_encodeRequest]

/-- The request of every instruction drives its unnamed operand bits to zero. -/
theorem encodeRequest_wf (i : Instr) : (encodeRequest i).wf = true := by
  cases i with
  | b32enc v => exact Laws.EncodeWellFormed.b32enc v
  | b32dec code => exact Laws.EncodeWellFormed.b32dec code
  | uqenc lat lon => exact Laws.EncodeWellFormed.uqenc lat lon
  | uqdec latIndex lonIndex => exact Laws.EncodeWellFormed.uqdec latIndex lonIndex
  | mqenc lat lon => exact Laws.EncodeWellFormed.mqenc lat lon
  | mqdec latIndex lonIndex => exact Laws.EncodeWellFormed.mqdec latIndex lonIndex
  | cval lat lon => exact Laws.EncodeWellFormed.cval lat lon
  | unpack packed => exact Laws.EncodeWellFormed.unpack packed
  | pack latIndex lonIndex => exact Laws.EncodeWellFormed.pack latIndex lonIndex
  | reserved0 | reservedA | reservedB | reservedC | reservedD | reservedE | reservedF => rfl

/-- A value in field `a` and nothing in field `b`: the request is the one its operand is widened into. -/
theorem request_of_value {op : BitVec 4} {a : BitVec 72} {b : BitVec 64} {n : Nat}
    (h : (a >>> n == 0 && b >>> 0 == 0) = true) : Request.mk op ((a.extractLsb' 0 n).setWidth 72) 0 = ⟨op, a, b⟩ := by
  obtain ⟨ha, hb⟩ := Bool.and_eq_true_iff.1 h
  rw [setWidth_extractLsb' a ha, eq_zero_of_ushiftRight_zero hb]

/-- A value in each field: the request is the one its operands are widened into. -/
theorem request_of_pair {op : BitVec 4} {a : BitVec 72} {b : BitVec 64} {n m : Nat}
    (h : (a >>> n == 0 && b >>> m == 0) = true) :
    Request.mk op ((a.extractLsb' 0 n).setWidth 72) ((b.extractLsb' 0 m).setWidth 64) = ⟨op, a, b⟩ := by
  obtain ⟨ha, hb⟩ := Bool.and_eq_true_iff.1 h
  rw [setWidth_extractLsb' a ha, setWidth_extractLsb' b hb]

/-- A value in field `a` and the whole of field `b`: the request is the one its operands are widened into. -/
theorem request_of_coordinates {op : BitVec 4} {a : BitVec 72} {b : BitVec 64} {n : Nat} (h : (a >>> n == 0) = true) :
    Request.mk op ((a.extractLsb' 0 n).setWidth 72) b = ⟨op, a, b⟩ := by
  rw [setWidth_extractLsb' a h]

/-- A well-formed request of an instruction is the one a host issues for it: in every row of the operation-code table
the operands widen back to the fields they were cut from. -/
theorem encodeRequest_decode {q : Request} (h : q.wf = true) : encodeRequest (decode q) = q := by
  obtain ⟨op, a, b⟩ := q
  by_cases hres : op = 0x0 ∨ 0xA ≤ op
  · have hzero : a = 0 ∧ b = 0 := by
      rcases reserved_codes hres with rfl | rfl | rfl | rfl | rfl | rfl | rfl
      all_goals
        obtain ⟨ha, hb⟩ := Bool.and_eq_true_iff.1 h
        exact ⟨eq_zero_of_ushiftRight_zero ha, eq_zero_of_ushiftRight_zero hb⟩
    obtain ⟨rfl, rfl⟩ := hzero
    rcases reserved_codes hres with rfl | rfl | rfl | rfl | rfl | rfl | rfl <;> rfl
  · rcases named_codes hres with rfl | rfl | rfl | rfl | rfl | rfl | rfl | rfl | rfl
    · exact request_of_value h
    · exact congrArg (Request.mk _ a) (eq_zero_of_ushiftRight_zero h).symm
    · exact request_of_coordinates h
    · exact request_of_pair h
    · exact request_of_coordinates h
    · exact request_of_pair h
    · exact request_of_coordinates h
    · exact request_of_value h
    · exact request_of_pair h

/-- Settles O2: a word that is an encoding is well formed, since every request of an instruction is; and the fields of
a well-formed word are those of the instruction it decodes to. -/
theorem encodeInvertsDecodeExactlyOnWellFormedWords : Obligations.EncodeInvertsDecodeExactlyOnWellFormedWords := by
  intro w
  constructor
  · intro h
    rw [← h, encode, requestOfWord_wordOfRequest]
    exact encodeRequest_wf _
  · intro h
    rw [encode, encodeRequest_decode h, wordOfRequest_requestOfWord]

/-- Settles O4: each word is the one the encoder writes for its instruction, and the last names the code 0xF. -/
theorem programWordsDecode : Obligations.ProgramWordsDecode := by
  refine ⟨?_, ?_, ?_, ?_, ?_, ?_, ?_, ?_, ?_, ?_⟩ <;> rfl

/-- The decoder reads a number that fits a request, and no other. -/
theorem decodeNumber_eq (w : Nat) : decodeNumber w =
    if w < 2 ^ 140 then .ok (decode (requestOfWord (BitVec.ofNat 140 w))) else .error .longerThanRequest := by
  have hfits : w >>> 140 = 0 ↔ w < 2 ^ 140 := by
    rw [Nat.shiftRight_eq_div_pow, Nat.div_eq_zero_iff_lt (by positivity)]
  simp only [decodeNumber, hfits]

theorem decodeTableWord_eq (nbits w : Nat) : decodeTableWord nbits w =
    if w % 2 ^ nbits < 2 ^ 140 then some (decode (requestOfWord (BitVec.ofNat 140 (w % 2 ^ nbits)))) else none := by
  rw [decodeTableWord, BitVec.toNat_ofNat, decodeNumber_eq]
  split_ifs <;> rfl

/-- Settles O5: the decoder has no instruction exactly where the number cut to `nbits` bits does not fit a request. -/
theorem decoderRefusesOnlyLongNumbers : Obligations.DecoderRefusesOnlyLongNumbers := by
  intro nbits w
  rw [decodeTableWord_eq, ite_eq_right_iff]
  constructor
  · intro h
    by_contra hlt
    exact absurd (h (not_le.1 hlt)) (Option.some_ne_none _)
  · intro h hlt
    exact absurd h (not_le.2 hlt)

end Sys2Proof.Machine
end

section
/-! PROOFS. The slot, reset and the ports (10_state.md R28, R29; 70_reset_and_hazards.md R230 to R237, R239). Every
statement about a step is read off the list of all that a step can do, `step_cases`, or off the equation of the one
kind of edge that it is about. -/

namespace Sys2Proof.Machine

variable {s t : State}

/-! ### One equation for each kind of edge -/

theorem step_handOver {sl : Slot} (hr : s.pins.rst = false) (hb : s.offerBroken = false) (hs : s.slot = some sl)
    (hw : sl.wait = 0) (hy : s.pins.rspReady = true) : step s = .next s.tick.emptied := by
  simp [step, State.edge, hr, hb, State.full_eq_true.2 ⟨sl, hs⟩, State.ready_iff.2 ⟨sl, hs, hw⟩, hy]

/-- A response that is not out yet or not taken is not handed over (R235, R236). -/
theorem not_handOver {sl : Slot} (hs : s.slot = some sl) (hn : sl.wait ≠ 0 ∨ s.pins.rspReady = false) :
    (s.ready && s.pins.rspReady) = false := by
  rw [Bool.and_eq_false_iff]
  refine hn.imp_left fun hw => ?_
  simpa [State.ready, hs] using hw

theorem step_hold {sl : Slot} (hr : s.pins.rst = false) (hb : s.offerBroken = false) (hs : s.slot = some sl)
    (hn : sl.wait ≠ 0 ∨ s.pins.rspReady = false) : step s = .next s.tick.countDown := by
  simp [step, State.edge, hr, hb, State.full_eq_true.2 ⟨sl, hs⟩, not_handOver hs hn]

theorem step_idle (hr : s.pins.rst = false) (hb : s.offerBroken = false) (hs : s.slot = none)
    (hv : s.pins.reqValid = false) : step s = .next s.tick := by
  simp [step, State.edge, hr, hb, State.full_eq_false.2 hs, hv]

theorem step_broken (hr : s.pins.rst = false) (hb : s.offerBroken = true) : step s = .refused .requestNotHeld := by
  simp [step, State.edge, hr, hb]

/-- Outside reset and under a host that keeps R234, a step answers a next state. -/
theorem step_answers (h : s.pins.rst = true ∨ s.offerBroken = false) : ∃ t, step s = .next t := by
  by_cases hr : s.pins.rst = true
  · exact ⟨_, step_reset hr⟩
  · have hb := h.resolve_left hr
    rw [Bool.not_eq_true] at hr
    cases hs : s.slot with
    | none =>
      cases hv : s.pins.reqValid with
      | true => exact ⟨_, step_accept hr hb hs hv⟩
      | false => exact ⟨_, step_idle hr hb hs hv⟩
    | some sl =>
      by_cases hn : sl.wait ≠ 0 ∨ s.pins.rspReady = false
      · exact ⟨_, step_hold hr hb hs hn⟩
      · push Not at hn
        exact ⟨_, step_handOver hr hb hs hn.1 (by simpa using hn.2)⟩

/-! ### The transaction-level step of each kind of edge -/

theorem txn_reset (hr : s.pins.rst = true) : s.txn = some .reset := by
  simp [State.txn, State.edge, hr]

theorem txn_accept (hr : s.pins.rst = false) (hb : s.offerBroken = false) (hs : s.slot = none)
    (hv : s.pins.reqValid = true) : s.txn = some (.accept s.pins.req) := by
  simp [State.txn, State.edge, hr, hb, State.full_eq_false.2 hs, hv]

theorem txn_idle (hr : s.pins.rst = false) (hb : s.offerBroken = false) (hs : s.slot = none)
    (hv : s.pins.reqValid = false) : s.txn = none := by
  simp [State.txn, State.edge, hr, hb, State.full_eq_false.2 hs, hv]

theorem txn_handOver {sl : Slot} (hr : s.pins.rst = false) (hb : s.offerBroken = false) (hs : s.slot = some sl)
    (hw : sl.wait = 0) (hy : s.pins.rspReady = true) : s.txn = some (.deliver sl.rsp) := by
  simp [State.txn, State.edge, hr, hb, State.full_eq_true.2 ⟨sl, hs⟩, State.ready_iff.2 ⟨sl, hs, hw⟩, hy,
    State.pending, hs]

theorem txn_hold {sl : Slot} (hr : s.pins.rst = false) (hb : s.offerBroken = false) (hs : s.slot = some sl)
    (hn : sl.wait ≠ 0 ∨ s.pins.rspReady = false) : s.txn = none := by
  simp [State.txn, State.edge, hr, hb, State.full_eq_true.2 ⟨sl, hs⟩, not_handOver hs hn]

/-! ### Refinement -/

/-- Settles O52: a reset, an acceptance at the empty slot and a hand-over of the full one are enabled steps of R239; a
cycle of `LATENCY` changes no response, and an idle cycle nothing of the slot. -/
theorem everyEdgeRefinesATransactionStep : Obligations.EveryEdgeRefinesATransactionStep := by
  intro s t h
  rcases step_cases h with ⟨hr, rfl⟩ | ⟨hr, hb, hout⟩
  · exact .inr ⟨_, txn_reset hr, rfl⟩
  rcases hout with ⟨sl, hs, hw, hy, rfl⟩ | ⟨sl, hs, hn, rfl⟩ | ⟨hs, hv, rfl⟩ | ⟨hs, hv, rfl⟩
  · exact .inr ⟨_, txn_handOver hr hb hs hw hy, by simp [State.pending, hs, txnNext]⟩
  · exact .inl ⟨txn_hold hr hb hs hn, by simp [State.pending, hs]⟩
  · exact .inr ⟨_, txn_accept hr hb hs hv, by simp [State.pending, hs, txnNext, respondTo]⟩
  · exact .inl ⟨txn_idle hr hb hs hv, by simp [State.pending]⟩

/-- Settles O53, by induction on the length of the run: the first edge makes an enabled step of R239 or none, and the
rest of the run is lawful from the slot that the edge leaves. -/
theorem everyRunIsALawfulTrace : Obligations.EveryRunIsALawfulTrace := by
  intro n
  induction n with
  | zero => exact fun s => trivial
  | succ n ih =>
    intro s
    cases h : step s with
    | next t =>
      have htrace : trace (n + 1) s = s.txn.toList ++ trace n t := by simp only [trace, h]
      rw [htrace]
      rcases everyEdgeRefinesATransactionStep s t h with ⟨htxn, hsame⟩ | ⟨e, htxn, hnext⟩
      · rw [htxn, ← hsame]
        exact ih t
      · rw [htxn]
        exact ⟨t.pending, hnext, ih t⟩
    | fault r => simp only [trace, h, Lawful]
    | refused r => simp only [trace, h, Lawful]

/-! ### The invariant -/

/-- An empty slot has nothing to keep. -/
theorem inv_of_slot_none (h : s.slot = none) : s.Inv where
  rsp sl hsl := by simp [h] at hsl
  wait sl hsl := by simp [h] at hsl
  tag sl hsl := by simp [h] at hsl

/-- A slot just filled has its whole `LATENCY` left, at the index of the coming edge. -/
theorem inv_filled (s : State) (i : Instr) : (s.filled (respond i)).Inv where
  rsp sl hsl := by cases hsl; exact ⟨i, rfl⟩
  wait sl hsl := by cases hsl; exact le_rfl
  tag sl hsl := by cases hsl; exact le_rfl

/-- A cycle of `LATENCY` keeps the response and its index and shortens what is left. -/
theorem inv_tick_countDown (h : s.Inv) : s.tick.countDown.Inv := by
  cases hs : s.slot with
  | none => exact inv_of_slot_none (by simp [hs])
  | some sl =>
    have hslot : s.tick.countDown.slot = some { sl with wait := sl.wait - 1 } := by simp [hs]
    refine ⟨fun sl' hsl' => ?_, fun sl' hsl' => ?_, fun sl' hsl' => ?_⟩
    all_goals
      rw [hslot] at hsl'
      obtain rfl := Option.some.inj hsl'
    · exact h.rsp sl hs
    · exact (Nat.sub_le _ _).trans (h.wait sl hs)
    · exact (h.tag sl hs).trans (Nat.le_succ _)

/-- Settles O54: a step leaves the slot empty, fills it with the response of the decoded request, or takes one cycle
of `LATENCY` off it. -/
theorem everyStepKeepsTheInvariant : Obligations.EveryStepKeepsTheInvariant := by
  intro s t hinv h
  rcases step_cases h with ⟨-, rfl⟩ | ⟨-, -, ⟨sl, -, -, -, rfl⟩ | ⟨sl, -, -, rfl⟩ | ⟨-, -, rfl⟩ | ⟨hs, -, rfl⟩⟩
  · exact inv_of_slot_none rfl
  · exact inv_of_slot_none rfl
  · exact inv_tick_countDown hinv
  · exact inv_filled _ _
  · exact inv_of_slot_none hs

/-- Settles O55: the slot is empty after reset. -/
theorem resetHasTheInvariant : Obligations.ResetHasTheInvariant := inv_of_slot_none State.reset_slot

/-! ### Acceptance -/

/-- Settles O8: an idle block answers an instruction with its response. -/
theorem everyInstructionCompletesAtAnIdleBlock : Obligations.EveryInstructionCompletesAtAnIdleBlock :=
  fun i _ hidle => answers_respond hidle i

/-- Settles O9: every instruction is accepted by `accept`, which turns it away at a full slot. -/
theorem fullSlotTurnsEveryRequestAway : Obligations.FullSlotTurnsEveryRequestAway := by
  intro i s hfull
  obtain ⟨sl, hs⟩ := Option.ne_none_iff_exists'.1 hfull
  rw [exec_eq_accept, accept_full _ hs]

/-- An accepting edge runs the meaning of the request, which `step_accept` says with its result. -/
theorem step_eq_exec (hs : s.slot = none) (hb : s.offerBroken = false) (hr : s.pins.rst = false)
    (hv : s.pins.reqValid = true) : step s = exec (decode s.pins.req) s.tick := by
  have hidle : s.tick.slot = none := hs
  rw [step_accept hr hb hs hv, exec_eq_accept, accept_idle _ hidle]

/-- The passing of an edge on an idle block: no request is left waiting. -/
theorem tick_of_idle (hs : s.slot = none) :
    s.tick = { slot := none, stimulus := s.stimulus.drop 1, offer := none, draws := s.draws + 1 } := by
  simp [State.tick, hs, State.full]

/-- Settles O6: the edge accepts, and the idle block has no request waiting. -/
theorem stepRunsTheDecodedRequest : Obligations.StepRunsTheDecodedRequest :=
  fun _ hs hb hr hv => ⟨step_eq_exec hs hb hr hv, tick_of_idle hs⟩

/-- Settles O7: the request that is placed on the port of the block is the one that the table number decodes to, and
the edge at which it stands there accepts. -/
theorem fetchWordIsRunByTheNextStep : Obligations.FetchWordIsRunByTheNextStep := by
  intro s nbits w i h
  rw [decodeTableWord_eq] at h
  obtain ⟨-, hi⟩ := Option.ite_none_right_eq_some.1 h
  have hreq : decode (s.withFetchWord nbits w).pins.req = i := by
    rw [← Option.some.inj hi, State.withFetchWord, State.withRequest_pins, BitVec.toNat_ofNat]
  rw [← hreq]
  exact step_eq_exec rfl rfl rfl rfl

/-- `req_ready` is 1 out of reset with an empty slot (R233). -/
theorem reqReady_iff (s : State) : s.portsOut.reqReady = true ↔ s.pins.rst = false ∧ s.slot = none := by
  simp [State.portsOut, State.full]

/-- Settles O46: a held offer leaves the acceptance of a request to `rst`, the slot and `req_valid` alone; a full slot
delivers or holds, and an idle one without a request passes the edge. -/
theorem acceptanceIsTheHandshake : Obligations.AcceptanceIsTheHandshake := by
  refine fun s => ⟨reqReady_iff s, fun hb => ⟨?_, ?_⟩⟩
  · rintro ⟨q, hq⟩
    rw [reqReady_iff]
    obtain ⟨t, ht⟩ := step_answers (.inr hb)
    rcases step_cases ht with ⟨hr, -⟩ | ⟨hr, -, ⟨sl, hs, hw, hy, -⟩ | ⟨sl, hs, hn, -⟩ | ⟨hs, hv, -⟩ | ⟨hs, hv, -⟩⟩
    · simp [txn_reset hr] at hq
    · simp [txn_handOver hr hb hs hw hy] at hq
    · simp [txn_hold hr hb hs hn] at hq
    · exact ⟨hv, hr, hs⟩
    · simp [txn_idle hr hb hs hv] at hq
  · rintro ⟨hv, hready⟩
    obtain ⟨hr, hs⟩ := (reqReady_iff s).1 hready
    exact ⟨_, txn_accept hr hb hs hv⟩

/-! ### Reset and refusal -/

/-- Settles O44: with an empty slot and `rst = 0` the block can accept and has nothing to offer. -/
theorem resetLeavesTheBlockIdle : Obligations.ResetLeavesTheBlockIdle :=
  ⟨State.reset_slot, (reqReady_iff _).2 ⟨rfl, rfl⟩, rfl⟩

/-- Settles O45: both handshake outputs need `rst = 0`, and the step is the reset of the slot. -/
theorem resetEdgeEmptiesTheSlot : Obligations.ResetEdgeEmptiesTheSlot := by
  intro s hr
  refine ⟨?_, ?_, ?_⟩
  · simp [State.portsOut, hr]
  · simp [State.portsOut, hr]
  · simp [step_reset hr, State.emptied, State.tick, hr]

/-- Settles O50: a withdrawn request is refused, and every other step answers a next state. -/
theorem onlyAWithdrawnRequestIsRefused : Obligations.OnlyAWithdrawnRequestIsRefused := by
  intro s
  constructor
  · rintro ⟨r, hrefused⟩
    by_contra hheld
    have hok : s.pins.rst = true ∨ s.offerBroken = false := by
      cases hr : s.pins.rst <;> simp_all
    obtain ⟨t, ht⟩ := step_answers hok
    simp [ht] at hrefused
  · rintro ⟨hr, hb⟩
    exact ⟨_, step_broken hr hb⟩

/-! ### The waiting response and its hand-over -/

/-- The response port drives the response of a slot field by field, its status and `info` always, its results where it
is OK (R61, R65). -/
theorem portsOut_of_ready {sl : Slot} (hr : s.pins.rst = false) (hs : s.slot = some sl) (hw : sl.wait = 0) :
    s.portsOut.rspStatus = statusCode sl.rsp ∧ s.portsOut.rspInfo = infoField sl.rsp
    ∧ ∀ x y, sl.rsp = .ok x y → s.portsOut.rspX = x ∧ s.portsOut.rspY = y := by
  simp only [State.portsOut, State.portWord_of_ready hr hs hw, responseWord]
  refine ⟨?_, ?_, fun x y hok => ?_⟩
  · rw [BitVec.extractLsb'_append_eq_of_le (by decide)]
    exact BitVec.extractLsb'_append_eq_left
  · rw [BitVec.extractLsb'_append_eq_of_le (by decide)]
    exact BitVec.extractLsb'_append_eq_right
  · rw [BitVec.extractLsb'_append_eq_of_add_le (by decide), BitVec.extractLsb'_append_eq_of_add_le (by decide), hok]
    exact ⟨BitVec.extractLsb'_append_eq_left, BitVec.extractLsb'_append_eq_right⟩

/-- Where no `LATENCY` is left, another cycle takes none off. -/
theorem tick_countDown_slot_of_ready {sl : Slot} (hs : s.slot = some sl) (hw : sl.wait = 0) :
    s.tick.countDown.slot = some sl := by
  obtain ⟨r, w, g⟩ := sl
  obtain rfl : w = 0 := hw
  simp [hs]

/-- Settles O47: the response word is that of the slot, which an edge without a hand-over leaves as it is once no
`LATENCY` is left. -/
theorem waitingResponseIsHeld : Obligations.WaitingResponseIsHeld := by
  intro s hvalid
  obtain ⟨hr, sl, hs, hw⟩ := State.rspValid_iff.1 hvalid
  refine ⟨⟨sl, hs, portsOut_of_ready hr hs hw⟩, fun hy hb => ?_⟩
  have hslot := tick_countDown_slot_of_ready hs hw
  refine ⟨_, step_hold hr hb hs (.inr hy), hslot.trans hs.symm, fun hr' => ⟨?_, ?_⟩⟩
  · exact State.rspValid_iff.2 ⟨hr', sl, hslot, hw⟩
  · rw [State.portWord_of_ready hr' hslot hw, State.portWord_of_ready hr hs hw]

/-- Settles O48: the edge hands the response over and empties the slot; the slot was full, so a request on the port
stays offered. -/
theorem handOverEmptiesTheSlot : Obligations.HandOverEmptiesTheSlot := by
  intro s hvalid hy hb
  obtain ⟨hr, sl, hs, hw⟩ := State.rspValid_iff.1 hvalid
  refine ⟨⟨sl.rsp, by simp [State.pending, hs], txn_handOver hr hb hs hw hy⟩, ?_⟩
  rw [step_handOver hr hb hs hw hy]
  simp [State.emptied, State.tick, hr, hs, State.full]

/-! ### Runs -/

/-- The offer that stands after an edge at a full slot. -/
theorem tick_offer_of_full {sl : Slot} (hr : s.pins.rst = false) (hs : s.slot = some sl) :
    s.tick.offer = if s.pins.reqValid then some s.pins.req else none := by
  simp [hr, hs, State.full]

/-- The pins of a state whose next edge is laid out. -/
theorem pins_of_stimulus {p : Pins} {ps : List Pins} (h : s.stimulus = p :: ps) : s.pins = p := by
  simp [State.pins, h]

/-- A host whose next edge holds the offer has not broken R234. -/
theorem offerBroken_eq_false {p : Pins} {ps : List Pins} (hstim : s.stimulus = p :: ps)
    (hhold : ∀ q, s.offer = some q → p.reqValid = true ∧ p.req = q) : s.offerBroken = false := by
  unfold State.offerBroken
  cases ho : s.offer with
  | none => rfl
  | some q =>
    obtain ⟨hv, hq⟩ := hhold q ho
    simp [pins_of_stimulus hstim, hv, hq]

/-- The steps of a run, one edge first. -/
theorem trace_succ_of_step {n : Nat} (h : step s = .next t) : trace (n + 1) s = s.txn.toList ++ trace n t := by
  simp only [trace, h]

/-- An edge laid out without reset and with the offer held at which the response in the slot is taken. -/
theorem taking_edge {sl : Slot} {p : Pins} {ps : List Pins} (hs : s.slot = some sl) (hstim : s.stimulus = p :: ps)
    (hrst : p.rst = false) (hhold : ∀ q, s.offer = some q → p.reqValid = true ∧ p.req = q) (hw : sl.wait = 0)
    (hy : p.rspReady = true) :
    step s = .next s.tick.emptied ∧ s.txn = some (.deliver sl.rsp)
    ∧ s.tick.emptied.offer = if p.reqValid then some p.req else none := by
  have hpins := pins_of_stimulus hstim
  have hb := offerBroken_eq_false hstim hhold
  rw [← hpins] at hrst hy
  refine ⟨step_handOver hrst hb hs hw hy, txn_handOver hrst hb hs hw hy, ?_⟩
  rw [State.emptied_offer, tick_offer_of_full hrst hs, hpins]

/-- An edge laid out without reset and with the offer held at which the response in the slot is not out yet or not
taken. -/
theorem waiting_edge {sl : Slot} {p : Pins} {ps : List Pins} (hs : s.slot = some sl) (hstim : s.stimulus = p :: ps)
    (hrst : p.rst = false) (hhold : ∀ q, s.offer = some q → p.reqValid = true ∧ p.req = q)
    (hn : sl.wait ≠ 0 ∨ p.rspReady = false) :
    step s = .next s.tick.countDown ∧ s.txn = none
    ∧ s.tick.countDown.offer = if p.reqValid then some p.req else none := by
  have hpins := pins_of_stimulus hstim
  have hb := offerBroken_eq_false hstim hhold
  rw [← hpins] at hrst hn
  refine ⟨step_hold hrst hb hs hn, txn_hold hrst hb hs hn, ?_⟩
  rw [State.countDown_offer, tick_offer_of_full hrst hs, hpins]

/-- The edges between the end of `LATENCY` and the taking, seen one edge later. -/
theorem mem_waits_of_mem_tail {p' p₀ : Pins} {ps : List Pins} {w n : Nat} (h : p' ∈ (ps.take n).drop (w - 1)) :
    p' ∈ ((p₀ :: ps).take (n + 1)).drop w := by
  rw [List.take_succ_cons]
  cases w with
  | zero => exact List.mem_cons_of_mem _ (List.mem_of_mem_drop h)
  | succ w => exact h

/-- Settles O49, by induction on the number of edges before the hand-over. Each of them finds the response not out yet
or not taken, so it delivers nothing, takes a cycle off `LATENCY` and leaves the offer of its request standing. -/
theorem acceptedRequestIsAnsweredAfterItsLatency : Obligations.AcceptedRequestIsAnsweredAfterItsLatency := by
  intro s sl n p hs hw hrst hhold hwait hp hy
  induction n generalizing s sl with
  | zero =>
    obtain ⟨ps, hstim⟩ : ∃ ps, s.stimulus = p :: ps := List.head?_eq_some_iff.1 (List.head?_eq_getElem?.trans hp)
    rw [hstim, List.take_succ_cons, List.take_zero] at hrst hhold
    obtain ⟨hstep, htxn, hoffer⟩ :=
      taking_edge hs hstim (hrst p List.mem_cons_self) hhold.1 (Nat.le_zero.1 hw) hy
    refine ⟨?_, s.tick.emptied, ?_, rfl, hoffer⟩
    · rw [trace_succ_of_step hstep, htxn]
      rfl
    · rw [run_succ_of_step hstep]
      rfl
  | succ n ih =>
    obtain ⟨p₀, ps, hstim⟩ : ∃ p₀ ps, s.stimulus = p₀ :: ps := by
      cases hst : s.stimulus with
      | nil => simp [hst] at hp
      | cons p₀ ps => exact ⟨p₀, ps, rfl⟩
    rw [hstim] at hrst hhold hwait hp
    rw [List.take_succ_cons] at hrst hhold
    obtain ⟨hrst₀, hrsts⟩ := List.forall_mem_cons.1 hrst
    obtain ⟨hhold₀, hholds⟩ := hhold
    have hn : sl.wait ≠ 0 ∨ p₀.rspReady = false := by
      by_cases h0 : sl.wait = 0
      · rw [h0, List.drop_zero, List.take_succ_cons] at hwait
        exact .inr (hwait p₀ List.mem_cons_self)
      · exact .inl h0
    obtain ⟨hstep, htxn, hoffer⟩ := waiting_edge hs hstim hrst₀ hhold₀ hn
    have hrest : s.tick.countDown.stimulus = ps := by simp [hstim]
    rw [trace_succ_of_step hstep, run_succ_of_step hstep, htxn]
    exact ih s.tick.countDown { sl with wait := sl.wait - 1 } (State.countDown_some hs) (Nat.sub_le_of_le_add hw)
      (by rwa [hrest]) (by rwa [hrest, hoffer])
      (by rw [hrest]; exact fun p' hmem => hwait p' (mem_waits_of_mem_tail hmem)) (by rwa [hrest])

/-- A host that only ever offers `q`: over the edges laid out, and over those after them. -/
theorem offerBroken_of_constant {q : Request} (hstim : ∀ p ∈ s.stimulus, p.reqValid = true ∧ p.req = q)
    (hoffer : s.offer = none ∨ s.offer = some q) : s.offerBroken = false := by
  cases hst : s.stimulus with
  | nil => rcases hoffer with h | h <;> simp [State.offerBroken, h, State.pins, hst, restPins]
  | cons p ps =>
    refine offerBroken_eq_false hst fun q' hq' => ?_
    obtain ⟨hv, hq⟩ := hstim p (by simp [hst])
    rcases hoffer with h | h
    · simp [h] at hq'
    · exact ⟨hv, hq.trans (Option.some.inj (h.symm.trans hq'))⟩

/-- The request on the port of such a host is `q` wherever there is one. -/
theorem pins_req_of_constant {q : Request} (hstim : ∀ p ∈ s.stimulus, p.reqValid = true ∧ p.req = q)
    (hoffer : s.offer = none ∨ s.offer = some q) : s.pins.reqValid = true → s.pins.req = q := by
  cases hst : s.stimulus with
  | nil => rcases hoffer with h | h <;> simp [h, State.pins, hst, restPins]
  | cons p ps =>
    rw [pins_of_stimulus hst]
    exact fun _ => (hstim p (by simp [hst])).2

/-- Whatever an edge does, it uses up one entry of the stimulus and leaves the offer that its passing leaves. -/
theorem step_frame (h : step s = .next t) : t.stimulus = s.stimulus.drop 1 ∧ t.offer = s.tick.offer := by
  rcases step_cases h with ⟨-, rfl⟩ | ⟨-, -, ⟨sl, -, -, -, rfl⟩ | ⟨sl, -, -, rfl⟩ | ⟨-, -, rfl⟩ | ⟨-, -, rfl⟩⟩ <;>
    exact ⟨rfl, rfl⟩

/-- Settles O51, by induction on the length: such a host never breaks R234, so the edge answers, and after the edge
it still offers nothing but its request. -/
theorem hostThatHoldsItsRequestRunsSafely : Obligations.HostThatHoldsItsRequestRunsSafely := by
  intro q n
  induction n with
  | zero => exact fun s _ _ => ⟨s, rfl⟩
  | succ n ih =>
    intro s hstim hoffer
    obtain ⟨t, ht⟩ := step_answers (.inr (offerBroken_of_constant hstim hoffer))
    obtain ⟨hrest, hkept⟩ := step_frame ht
    have hoffer' : t.offer = none ∨ t.offer = some q := by
      rw [hkept, State.tick_offer]
      split_ifs with hwaiting
      · simp only [Bool.and_eq_true] at hwaiting
        exact .inr (congrArg some (pins_req_of_constant hstim hoffer hwaiting.2))
      · exact .inl rfl
    obtain ⟨u, hu⟩ := ih t (fun p hp => hstim p (List.mem_of_mem_drop (hrest ▸ hp))) hoffer'
    exact ⟨u, (run_succ_of_step ht).trans hu⟩

end Sys2Proof.Machine
end

section
/-! PROOFS. The laws of the pair `B32ENC`, `B32DEC` (40_base32.md R96, R97). The decoder's fold over the digits of a
value, most significant first, builds the value again, and the digits of a value so built are those it was built from;
`IDX` and `ALPHA` carry this over to characters. -/

namespace Sys2Proof.Machine

/-! ### Digits and values -/

/-- R94's accumulation on symbol values. -/
def appendDigit (value : Nat) (d : BitVec 5) : Nat := value * 32 + d.toNat

theorem foldl_appendDigit_lt (ds : List (BitVec 5)) : ds.foldl appendDigit 0 < 32 ^ ds.length := by
  induction ds using List.reverseRecOn with
  | nil => exact Nat.one_pos
  | append_singleton ds d ih =>
    have hd := d.isLt
    rw [List.foldl_append, List.foldl_cons, List.foldl_nil, appendDigit, List.length_append, List.length_singleton,
      pow_succ]
    omega

/-- The digits of a value, most significant first, build its last `5 n` bits. -/
theorem foldl_appendDigit_digits (n : Nat) (t : U45) : (digits n t).reverse.foldl appendDigit 0 = t.toNat % 32 ^ n := by
  induction n generalizing t with
  | zero => rw [pow_zero, Nat.mod_one]; rfl
  | succ n ih =>
    have hsplit : t.toNat % 32 ^ (n + 1) = t.toNat % 2 ^ 5 + 32 * (t.toNat / 2 ^ 5 % 32 ^ n) := by
      rw [pow_succ']
      exact Nat.mod_mul
    rw [digits, List.reverse_cons, List.foldl_append, ih, setWidth_and_31, List.foldl_cons, List.foldl_nil, appendDigit,
      BitVec.toNat_setWidth, BitVec.toNat_ushiftRight, Nat.shiftRight_eq_div_pow, hsplit]
    omega

/-- The digits of a value that was built from nine digits are those nine. -/
theorem digits_foldl_appendDigit (ds : List (BitVec 5)) (h : ds.length ≤ 9) :
    digits ds.length (BitVec.ofNat 45 (ds.foldl appendDigit 0)) = ds.reverse := by
  induction ds using List.reverseRecOn with
  | nil => rfl
  | append_singleton ds d ih =>
    rw [List.length_append, List.length_singleton] at h
    have hlt : ds.foldl appendDigit 0 * 32 + d.toNat < 2 ^ 45 :=
      calc ds.foldl appendDigit 0 * 32 + d.toNat
          < 32 ^ (ds.length + 1) := by
            have hlt := foldl_appendDigit_lt (ds ++ [d])
            rwa [List.foldl_append, List.length_append] at hlt
        _ ≤ 32 ^ 9 := Nat.pow_le_pow_right (by decide) h
    have hd := d.isLt
    have hlow : (BitVec.ofNat 45 (ds.foldl appendDigit 0 * 32 + d.toNat)).setWidth 5 = d := by
      apply BitVec.eq_of_toNat_eq
      rw [BitVec.toNat_setWidth, BitVec.toNat_ofNat, Nat.mod_eq_of_lt hlt]
      omega
    have hhigh : BitVec.ofNat 45 (ds.foldl appendDigit 0 * 32 + d.toNat) >>> 5
        = BitVec.ofNat 45 (ds.foldl appendDigit 0) := by
      apply BitVec.eq_of_toNat_eq
      rw [BitVec.toNat_ushiftRight, BitVec.toNat_ofNat, BitVec.toNat_ofNat, Nat.mod_eq_of_lt hlt,
        Nat.shiftRight_eq_div_pow, Nat.mod_eq_of_lt (by omega)]
      omega
    rw [List.foldl_append, List.foldl_cons, List.foldl_nil, appendDigit, List.length_append, List.length_singleton,
      digits, setWidth_and_31, hlow, hhigh, ih (by omega), List.reverse_append]
    rfl

/-! ### Symbols and characters -/

theorem idx_alpha (i : BitVec 5) : idx (alpha i) = some i := by
  revert i; decide

/-- Over symbols, accumulating characters is accumulating their values. -/
theorem foldl_appendSymbol_alpha (ds : List (BitVec 5)) (value : Nat) :
    (ds.map alpha).foldl appendSymbol value = ds.foldl appendDigit value := by
  have hstep (v : Nat) (d : BitVec 5) : appendSymbol v (alpha d) = appendDigit v d :=
    appendSymbol_of_idx (idx_alpha d) v
  rw [List.foldl_map]
  simp only [hstep]

/-- The values of the characters of a code, left to right. -/
def symbols (code : Code9) : List (BitVec 5) := (chars code).map fun c => (idx c).getD 0

theorem symbols_length (code : Code9) : (symbols code).length = 9 := by rw [symbols, List.length_map, chars_length]

/-- The value that R94 builds from a code is that of its symbols. -/
theorem foldl_appendSymbol_chars (code : Code9) :
    (chars code).foldl appendSymbol 0 = (symbols code).foldl appendDigit 0 := by
  rw [symbols, List.foldl_map]
  rfl

/-- Characters of the alphabet are, in upper case, the symbols they stand for. -/
theorem map_alpha_symbols {code : Code9} (h : ∀ c ∈ chars code, idx c ≠ none) :
    (symbols code).map alpha = (chars code).map upper := by
  rw [symbols, List.map_map]
  refine List.map_congr_left fun c hc => ?_
  obtain ⟨i, hi⟩ := Option.ne_none_iff_exists'.1 (h c hc)
  rw [Function.comp_apply, hi]
  exact idx_some_upper hi

theorem chars_codeOf (v : U45) : chars (codeOf v) = (digits 9 v).reverse.map alpha := by
  rw [codeOf, chars_packChars (by simp [digits_length]), List.map_reverse]

theorem forall_mem_chars_iff (code : Code9) :
    (∀ c ∈ chars code, idx c ≠ none) ↔ ∀ k < 9, idx (charAt code k) ≠ none := by
  simp [chars]

/-! ### The two laws -/

/-- The code of a value has nine characters of the alphabet, and their value is the value. -/
theorem respond_b32dec_codeOf (v : U45) : respond (.b32dec (codeOf v)) = .ok (v.setWidth 72) 0 := by
  have hgood : ∀ c ∈ chars (codeOf v), idx c ≠ none := by
    rw [chars_codeOf]
    intro c hc
    obtain ⟨d, -, rfl⟩ := List.mem_map.1 hc
    rw [idx_alpha]
    exact Option.some_ne_none d
  have hfits : v.toNat % 32 ^ 9 = v.toNat := Nat.mod_eq_of_lt v.isLt
  rw [respond_b32dec_good ((forall_mem_chars_iff _).1 hgood), chars_codeOf, foldl_appendSymbol_alpha,
    foldl_appendDigit_digits, hfits, BitVec.ofNat_toNat, BitVec.setWidth_eq]
  rfl

/-- The code of the value of a code is the code in upper case. -/
theorem codeOf_value {code : Code9} (h : ∀ k < 9, idx (charAt code k) ≠ none) :
    codeOf (BitVec.ofNat 45 ((chars code).foldl appendSymbol 0)) = mapCode upper code := by
  have hdigits := digits_foldl_appendDigit (symbols code) (symbols_length code).le
  rw [symbols_length] at hdigits
  rw [codeOf, foldl_appendSymbol_chars, hdigits, List.map_reverse, List.reverse_reverse,
    map_alpha_symbols ((forall_mem_chars_iff code).2 h), mapCode]

/-- Settles O14: the digits of a value build the value, and a value built from nine symbols has those as its digits. -/
theorem base32IsABijection : Obligations.Base32IsABijection := by
  refine ⟨fun v => ⟨codeOf v, rfl, respond_b32dec_codeOf v⟩, fun code hgood => ?_⟩
  refine ⟨BitVec.ofNat 45 ((chars code).foldl appendSymbol 0), respond_b32dec_good hgood, ?_⟩
  rw [respond_b32enc, codeOf_value hgood]

/-! ### Letter case -/

theorem upper_lower (c : Byte) : upper (lower c) = upper c := by
  revert c; decide +kernel

/-- Neither case function changes what a character is looked up to (R97). -/
theorem idx_caseChange {f : Byte → Byte} (hf : f = upper ∨ f = lower) (c : Byte) : idx (f c) = idx c := by
  rcases hf with rfl | rfl
  · exact idx_upper c
  · rw [← idx_upper, upper_lower, idx_upper]

/-- Two responses that differ at most in the byte that an error reports. -/
def SameButByte (r r' : Response) : Prop :=
  r = r' ∨ ∃ c c' k, r = .error .invalidCharacter (charInfo c k) ∧ r' = .error .invalidCharacter (charInfo c' k)

/-- The loop of `B32DEC` sees a character through `IDX` alone, except where it reports it. -/
theorem sameButByte_decodeChars {f : Byte → Byte} (hf : ∀ c, idx (f c) = idx c) (cs : List Byte) (k value : Nat) :
    SameButByte (decodeChars (cs.map f) k value) (decodeChars cs k value) := by
  induction cs generalizing k value with
  | nil => exact .inl rfl
  | cons c cs ih =>
    rw [List.map_cons]
    cases hc : idx c with
    | none =>
      rw [decodeChars_bad ((hf c).trans hc), decodeChars_bad hc]
      exact .inr ⟨_, _, _, rfl, rfl⟩
    | some i =>
      rw [decodeChars_good ((hf c).trans hc), decodeChars_good hc]
      exact ih _ _

/-- The position stands in the low four bits of `info`, whatever the byte above it. -/
theorem position_charInfo (c : Byte) (k : Nat) : (charInfo c k).extractLsb' 0 4 = BitVec.ofNat 4 k :=
  BitVec.extractLsb'_append_eq_right

/-- Settles O15: with its letters changed, a code is decoded by the same look-ups, so the two responses differ at most
in the byte reported. -/
theorem decodingIgnoresLetterCase : Obligations.DecodingIgnoresLetterCase := by
  intro code f hf
  have hsame : SameButByte (respond (.b32dec (mapCode f code))) (respond (.b32dec code)) := by
    have hlen : ((chars code).map f).length = 9 := by rw [List.length_map, chars_length]
    have hloop := sameButByte_decodeChars (idx_caseChange hf) (chars code) 0 0
    rwa [← chars_packChars hlen] at hloop
  rcases hsame with heq | ⟨c, c', k, h, h'⟩
  · rw [heq]
    exact ⟨rfl, fun _ => rfl, rfl⟩
  · rw [h, h']
    refine ⟨rfl, fun hok => absurd hok (by simp [statusCode, errorCode]), ?_⟩
    exact (position_charInfo c k).trans (position_charInfo c' k).symm

end Sys2Proof.Machine
end

section
/-! PROOFS. The range check as an operation, `CVAL` (43_coordinate_validator.md R161). -/

namespace Sys2Proof.Machine

theorem respond_cval_of_within {lat lon : F64} (hlat : Within 90 lat) (hlon : Within 180 lon) :
    respond (.cval lat lon) = emptyResult := rangeChecked_of_within hlat hlon _

theorem respond_cval_of_not_within {lat lon : F64} (h : ¬ (Within 90 lat ∧ Within 180 lon)) :
    respond (.cval lat lon) = .error .rangeError (outOfRangeInfo lat lon) := rangeChecked_of_not_within h _

/-- Settles O17: the idle block answers what the range check lets through, which is nothing, or raises. -/
theorem cvalAnswersTheRangeCheck : Obligations.CvalAnswersTheRangeCheck := by
  intro a b s hidle
  have hanswers := answers_respond hidle (.cval (a.extractLsb' 0 64) b)
  refine ⟨rfl, fun hlat hlon => ?_, fun hout => ?_⟩
  · rwa [respond_cval_of_within hlat hlon] at hanswers
  · rwa [respond_cval_of_not_within hout] at hanswers

/-- Settles O18: the three operations stand behind the same range check, which passes for all or answers for all. -/
theorem quantizersRejectExactlyWhatCvalRejects : Obligations.QuantizersRejectExactlyWhatCvalRejects := by
  intro lat lon
  by_cases hin : Within 90 lat ∧ Within 180 lon
  · obtain ⟨hlat, hlon⟩ := hin
    rw [respond_cval_of_within hlat hlon, respond_uqenc_of_within hlat hlon, respond_mqenc_of_within hlat hlon]
    exact ⟨fun _ => ⟨rfl, rfl⟩, fun hbad => absurd rfl hbad⟩
  · rw [respond_cval_of_not_within hin, respond_uqenc_of_not_within hin, respond_mqenc_of_not_within hin]
    exact ⟨fun hok => absurd hok (by simp [statusCode, errorCode]), fun _ => ⟨rfl, rfl⟩⟩

end Sys2Proof.Machine
end

section
/-! PROOFS. The laws of packed cells (44_packed_cell.md R173): the packed value is latIndex over lonIndex, and
`UNPACK` cuts it where `PACK` joined it. -/

namespace Sys2Proof.Machine

theorem latIndexOf_packCell (i : U22) (j : U23) : latIndexOf (packCell i j) = i := by
  apply BitVec.eq_of_toNat_eq
  have hj := j.isLt
  rw [latIndexOf_toNat, packCell_toNat]
  omega

theorem lonIndexOf_packCell (i : U22) (j : U23) : lonIndexOf (packCell i j) = j := by
  apply BitVec.eq_of_toNat_eq
  have hj := j.isLt
  rw [lonIndexOf_toNat, packCell_toNat]
  omega

theorem packCell_indices (p : U45) : packCell (latIndexOf p) (lonIndexOf p) = p := by
  apply BitVec.eq_of_toNat_eq
  rw [packCell_toNat, latIndexOf_toNat, lonIndexOf_toNat]
  omega

theorem respond_unpack_packCell (i : U22) (j : U23) :
    respond (.unpack (packCell i j)) = .ok (i.setWidth 72) (j.setWidth 64) := by
  rw [respond_unpack, latIndexOf_packCell, lonIndexOf_packCell]

/-- Settles O39: the packed value is latIndex over lonIndex, and splitting it at bit 23 is division with remainder. -/
theorem packAndUnpackAreInverse : Obligations.PackAndUnpackAreInverse := by
  refine ⟨fun i j => ⟨packCell i j, respond_pack i j, respond_unpack_packCell i j⟩, fun p => ?_⟩
  refine ⟨latIndexOf p, lonIndexOf p, respond_unpack p, ?_⟩
  rw [respond_pack, packCell_indices]

end Sys2Proof.Machine
end

section
/-! PROOFS. The statuses of the table (60_exceptions.md R200) and the result bits that R63 does not name
(30_encoding.md R65). -/

namespace Sys2Proof.Machine

/-! ### Statuses -/

/-- Settles O42: of the four ways to answer a request, each has its own status and its own operation codes, and the
codes that name no failing row can only be answered `OK`. -/
theorem statusesAreThoseOfTheTable : Obligations.StatusesAreThoseOfTheTable := by
  intro q
  have hrow := respondTo_tableRow q
  generalize respondTo q = r at hrow
  cases hrow with
  | ok hop =>
    rcases named_codes hop with h | h | h | h | h | h | h | h | h <;> simp [statusCode, h]
  | rangeError hop => rcases hop with h | h | h <;> simp [statusCode, errorCode, h]
  | invalidCharacter hop => simp [statusCode, errorCode, hop]
  | illegalOp hop => rcases reserved_codes hop with h | h | h | h | h | h | h <;> simp [statusCode, errorCode, h]

/-! ### Unnamed result bits -/

/-- A value of `m` bits has no bit outside the mask of its width. -/
theorem setWidth_and_not_mask {m n : Nat} (v : BitVec m) : v.setWidth n &&& ~~~ (BitVec.allOnes m).setWidth n = 0 := by
  ext k hk
  by_cases hm : k < m
  · simp [hm]
  · simp [BitVec.getLsbD_of_ge v k (by omega)]

/-- A whole field has no bit outside itself. -/
theorem and_not_allOnes {n : Nat} (v : BitVec n) : v &&& ~~~ BitVec.allOnes n = 0 := by simp

/-- The results of an OK response fill no bit outside two masks. -/
def FillsOnly (mx : BitVec 72) (my : BitVec 64) (r : Response) : Prop :=
  ∀ x y, r = .ok x y → x &&& ~~~ mx = 0 ∧ y &&& ~~~ my = 0

theorem fillsOnly_ok {mx : BitVec 72} {my : BitVec 64} {x : BitVec 72} {y : BitVec 64} (hx : x &&& ~~~ mx = 0)
    (hy : y &&& ~~~ my = 0) : FillsOnly mx my (.ok x y) := by
  rintro _ _ ⟨⟩
  exact ⟨hx, hy⟩

theorem fillsOnly_error (mx : BitVec 72) (my : BitVec 64) (e : ErrorStatus) (info : BitVec 12) :
    FillsOnly mx my (.error e info) := by
  rintro _ _ ⟨⟩

theorem fillsOnly_rangeChecked {mx : BitVec 72} {my : BitVec 64} {r : Response} (h : FillsOnly mx my r)
    (lat lon : F64) : FillsOnly mx my (rangeChecked lat lon r) := by
  rcases rangeChecked_cases lat lon r with heq | heq <;> rw [heq]
  · exact h
  · exact fillsOnly_error _ _ _ _

theorem fillsOnly_valueResult (v : U45) : FillsOnly 0x1FFFFFFFFFFF 0 (valueResult v) :=
  fillsOnly_ok (setWidth_and_not_mask v) (by decide)

theorem fillsOnly_cellResult (i : U22) (j : U23) : FillsOnly 0x3FFFFF 0x7FFFFF (cellResult i j) :=
  fillsOnly_ok (setWidth_and_not_mask i) (setWidth_and_not_mask j)

theorem fillsOnly_coordResult (lat lon : F64) :
    FillsOnly 0xFFFFFFFFFFFFFFFF 0xFFFFFFFFFFFFFFFF (coordResult lat lon) :=
  fillsOnly_ok (setWidth_and_not_mask lat) (and_not_allOnes lon)

/-- `B32DEC` answers a 45-bit value or an error. -/
theorem fillsOnly_b32dec (code : Code9) : FillsOnly 0x1FFFFFFFFFFF 0 (respond (.b32dec code)) := by
  by_cases hall : ∀ k < 9, idx (charAt code k) ≠ none
  · rw [respond_b32dec_good hall]
    exact fillsOnly_valueResult _
  · obtain ⟨k, hk, hbad, hgood⟩ := exists_leftmost_bad (by simpa using hall)
    rw [respond_b32dec_bad hk hgood hbad]
    exact fillsOnly_error _ _ _ _

/-- In every row of the operation-code table the response fills the result bits that R63 names, and no other. -/
theorem fillsOnly_respondTo (q : Request) : FillsOnly (namedX q.op) (namedY q.op) (respondTo q) := by
  obtain ⟨op, a, b⟩ := q
  by_cases hres : op = 0x0 ∨ 0xA ≤ op
  · rw [respondTo, respond_reserved hres]
    exact fillsOnly_error _ _ _ _
  · rcases named_codes hres with rfl | rfl | rfl | rfl | rfl | rfl | rfl | rfl | rfl
    · exact fillsOnly_ok (and_not_allOnes _) (BitVec.zero_and)
    · exact fillsOnly_b32dec a
    · exact fillsOnly_rangeChecked (fillsOnly_cellResult _ _) _ _
    · exact fillsOnly_coordResult _ _
    · exact fillsOnly_rangeChecked (fillsOnly_cellResult _ _) _ _
    · exact fillsOnly_coordResult _ _
    · exact fillsOnly_rangeChecked (fillsOnly_ok BitVec.zero_and BitVec.zero_and) _ _
    · exact fillsOnly_cellResult _ _
    · exact fillsOnly_valueResult _

/-- Settles O41: an OK response has `info` 0 by its form, and its results fill the named bits only. -/
theorem okResponsesDriveUnnamedBitsToZero : Obligations.OkResponsesDriveUnnamedBitsToZero := by
  intro q x y hok
  exact ⟨by rw [hok]; rfl, fillsOnly_respondTo q x y hok⟩

end Sys2Proof.Machine
end

section
/-! PROOFS. The host's strings and pseudo-operations (49_host_facade.md R182 to R187): `ENCODE` and `DECODE` put
together the laws of `PACK` with `UNPACK` and of `B32ENC` with `B32DEC`. -/

namespace Sys2Proof.Machine

/-! ### Strings -/

/-- Nine characters with dashes after the third and the sixth (R182). -/
theorem formatForHumans_nine (c₀ c₁ c₂ c₃ c₄ c₅ c₆ c₇ c₈ : Byte) :
    formatForHumans [c₀, c₁, c₂, c₃, c₄, c₅, c₆, c₇, c₈] = some [c₀, c₁, c₂, dash, c₃, c₄, c₅, dash, c₆, c₇, c₈] := rfl

/-- The dashes at positions 3 and 7 of eleven characters are taken out (R183). -/
theorem removeFormatting_eleven (c₀ c₁ c₂ c₃ c₄ c₅ c₆ c₇ c₈ : Byte) :
    removeFormatting [c₀, c₁, c₂, dash, c₃, c₄, c₅, dash, c₆, c₇, c₈] = some [c₀, c₁, c₂, c₃, c₄, c₅, c₆, c₇, c₈] := rfl

/-- Settles O59: on nine characters, one by one. -/
theorem formattingIsUndone : Obligations.FormattingIsUndone := by
  intro cs hlen
  match cs, hlen with
  | [c₀, c₁, c₂, c₃, c₄, c₅, c₆, c₇, c₈], _ =>
    exact ⟨_, formatForHumans_nine .., rfl, rfl, rfl, removeFormatting_eleven ..⟩

/-- A code in the form a host asked for. -/
def codeForm (human : Bool) (cs : List Byte) : List Byte := if human then (formatForHumans cs).getD [] else cs

/-- The test in front of `B32DEC` passes nine characters in either form (R185). -/
theorem compactForm_codeForm {cs : List Byte} (hlen : cs.length = 9) (human : Bool) :
    compactForm (codeForm human cs) = some cs := by
  cases human with
  | true =>
    obtain ⟨h, hformat, -, -, -, hremove⟩ := formattingIsUndone cs hlen
    simp [codeForm, compactForm, hformat, hremove]
  | false => simp [codeForm, compactForm, removeFormatting, hlen]

/-! ### The pseudo-operations -/

theorem issue_of_ok {β : Type} {i : Instr} {x : BitVec 72} {y : BitVec 64} (h : respond i = .ok x y)
    (k : BitVec 72 → BitVec 64 → Except HostError β) : issue i k = k x y := by
  simp only [issue, h]

/-- An accepted pair has a cell under either strategy (R111, R135). -/
theorem exists_cell_of_within (st : Strategy) {lat lon : F64} (hlat : Within 90 lat) (hlon : Within 180 lon) :
    ∃ (i : U22) (j : U23), respond (strategyEncode st lat lon) = .ok (i.setWidth 72) (j.setWidth 64) := by
  cases st with
  | uniform => exact ⟨_, _, respond_uqenc_of_within hlat hlon⟩
  | meterBased => exact ⟨_, _, respond_mqenc_of_within hlat hlon⟩

/-- A cell has a point under either strategy (R115, R140). -/
theorem exists_point (st : Strategy) (i : U22) (j : U23) :
    ∃ lat lon : F64, respond (strategyDecode st i j) = .ok (lat.setWidth 72) lon := by
  cases st with
  | uniform => exact ⟨_, _, respond_uqdec i j⟩
  | meterBased => exact ⟨_, _, respond_mqdec i j⟩

/-- `ENCODE` answers the code of the packed cell (R184). -/
theorem pseudoEncode_of_cell {st : Strategy} {lat lon : F64} {i : U22} {j : U23}
    (h : respond (strategyEncode st lat lon) = .ok (i.setWidth 72) (j.setWidth 64)) (human : Bool) :
    pseudoEncode st lat lon human = .ok (codeForm human (chars (codeOf (packCell i j)))) := by
  have hi : operandU22 (i.setWidth 72) = i := extractLsb'_setWidth (by decide) i
  have hj : operandU23 (j.setWidth 64) = j := extractLsb'_setWidth (by decide) j
  have hp : operandU45 ((packCell i j).setWidth 72) = packCell i j := extractLsb'_setWidth (by decide) _
  rw [pseudoEncode, issue_of_ok h, hi, hj, issue_of_ok (respond_pack i j), hp, issue_of_ok (respond_b32enc _)]
  rfl

/-- The characters of a code, packed again. -/
theorem packChars_chars_codeOf (v : U45) : packChars (chars (codeOf v)) = codeOf v := by
  rw [codeOf, chars_packChars (by simp [digits_length])]

/-- Settles O60: the code is that of the packed cell, `B32DEC` and `UNPACK` take it back to the cell, and the decoder
of the strategy gives its point. -/
theorem pseudoDecodeGivesThePointOfTheChosenCell : Obligations.PseudoDecodeGivesThePointOfTheChosenCell := by
  intro st lat lon human hlat hlon
  obtain ⟨i, j, hcell⟩ := exists_cell_of_within st hlat hlon
  obtain ⟨lat', lon', hpoint⟩ := exists_point st i j
  have hcompact := compactForm_codeForm (chars_length (codeOf (packCell i j))) human
  have hvalue := respond_b32dec_codeOf (packCell i j)
  have hi : operandU22 (i.setWidth 72) = i := extractLsb'_setWidth (by decide) i
  have hj : operandU23 (j.setWidth 64) = j := extractLsb'_setWidth (by decide) j
  have hp : operandU45 ((packCell i j).setWidth 72) = packCell i j := extractLsb'_setWidth (by decide) _
  have hlat' : operandF64 (lat'.setWidth 72) = lat' := extractLsb'_setWidth (by decide) lat'
  refine ⟨i, j, _, lat', lon', hcell, hpoint, pseudoEncode_of_cell hcell human, ?_, ?_⟩
  · rw [isValidEncoding, hcompact]
    simp only [packChars_chars_codeOf, hvalue]
    rfl
  · rw [pseudoDecode, hcompact]
    simp only [packChars_chars_codeOf]
    rw [issue_of_ok hvalue, hp, issue_of_ok (respond_unpack_packCell i j), hi, hj, issue_of_ok hpoint, hlat']

end Sys2Proof.Machine
end

section
/-! PROOFS. Rounding to nearest, ties to even (00_scope.md R11). `roundMag` scales `p / q` to a number below 2^53 in
steps of `2^k` grid units and rounds it to a whole number of steps. That number of steps is nearest among all whole
numbers of steps, and a datum that is no whole number of steps lies below the binade of `p / q`. -/

namespace Sys2Proof.Machine

/-! ### Whole numbers of steps -/

/-- Rounding to a whole number moves by at most a half, and by a half only to an even number. -/
theorem abs_nearestEven_sub_le (p : Nat) {q : Nat} (hq : 0 < q) :
    |(nearestEven p q : ℚ) - p / q| ≤ 1 / 2
    ∧ (|(nearestEven p q : ℚ) - p / q| = 1 / 2 → nearestEven p q % 2 = 0) := by
  obtain ⟨hlow, hhigh, heven⟩ := nearestEven_spec p hq
  generalize nearestEven p q = n at *
  have hq' : (0 : ℚ) < q := by exact_mod_cast hq
  obtain ⟨x, hx⟩ : ∃ x : ℚ, x = p / q := ⟨_, rfl⟩
  have hp : (p : ℚ) = x * q := by rw [hx, div_mul_cancel₀ _ hq'.ne']
  rw [← hx]
  constructor
  · have hlow' : (2 * x) * q ≤ (2 * n + 1) * q := by
      rw [mul_assoc, ← hp]
      exact_mod_cast hlow
    have hhigh' : (2 * n : ℚ) * q ≤ (2 * x + 1) * q := by
      rw [add_mul, mul_assoc 2 x, ← hp, one_mul]
      exact_mod_cast hhigh
    rw [abs_le]
    constructor <;> linarith [le_of_mul_le_mul_right hlow' hq', le_of_mul_le_mul_right hhigh' hq']
  · intro htie
    refine heven ?_
    rcases (abs_eq (by norm_num)).1 htie with h | h
    · have hup : (2 * n * q : ℚ) = 2 * p + q := by rw [hp]; linear_combination 2 * (q : ℚ) * h
      exact .inr (by exact_mod_cast hup)
    · have hdown : (2 * p : ℚ) = (2 * n + 1) * q := by rw [hp]; linear_combination (-2) * (q : ℚ) * h
      exact .inl (by exact_mod_cast hdown)

/-- No whole number is nearer to `p / q` than `nearestEven p q`, and if another one is as near it is even. -/
theorem nearestEven_nearest (p : Nat) {q : Nat} (hq : 0 < q) (m : Int) :
    |(nearestEven p q : ℚ) - p / q| ≤ |(m : ℚ) - p / q|
    ∧ (|(nearestEven p q : ℚ) - p / q| = |(m : ℚ) - p / q| → m ≠ nearestEven p q → nearestEven p q % 2 = 0) := by
  obtain ⟨hnear, heven⟩ := abs_nearestEven_sub_le p hq
  generalize nearestEven p q = n at *
  rcases eq_or_ne m n with rfl | hne
  · simp
  · have hhalf : 1 / 2 ≤ |(m : ℚ) - p / q| := by
      obtain ⟨hge, hle⟩ := abs_le.1 hnear
      rw [le_abs]
      rcases lt_or_gt_of_ne hne with h | h
      · have h' : (m : ℚ) + 1 ≤ n := by exact_mod_cast h
        exact .inr (by linarith)
      · have h' : (n : ℚ) + 1 ≤ m := by exact_mod_cast h
        exact .inl (by linarith)
    exact ⟨hnear.trans hhalf, fun heq _ => heven (le_antisymm hnear (heq ▸ hhalf))⟩

/-- The exponent step of the binade that holds `p / q`, as `roundMag` takes it. -/
def roundStep (p q : Nat) : Nat := Nat.log2 (p * gridUnits / q) - 52

/-- The number of steps that `roundMag` rounds `p / q` to. -/
def roundSteps (p q : Nat) : Nat := nearestEven (p * gridUnits) (q * 2 ^ roundStep p q)

theorem roundMag_eq (p q : Nat) :
    roundMag p q = min (roundStep p q * hiddenBit + roundSteps p q) infBits := by
  rw [roundMag, roundSteps, roundStep, Nat.shiftLeft_eq]

/-- Above the lowest binade the quotient has its hidden bit. -/
theorem hiddenBit_le_quotient (p q : Nat) :
    roundStep p q = 0 ∨ hiddenBit * (q * 2 ^ roundStep p q) ≤ p * gridUnits := by
  rw [or_iff_not_imp_left]
  intro hk
  have hlog : roundStep p q + 52 = Nat.log2 (p * gridUnits / q) := by unfold roundStep at hk ⊢; omega
  have hne : p * gridUnits / q ≠ 0 := by
    intro h0
    rw [h0, Nat.log2_zero] at hlog
    omega
  calc hiddenBit * (q * 2 ^ roundStep p q)
      = 2 ^ (roundStep p q + 52) * q := by rw [pow_add, hiddenBit_eq]; ring
    _ ≤ p * gridUnits / q * q := Nat.mul_le_mul_right _ (hlog ▸ Nat.log2_self_le hne)
    _ ≤ p * gridUnits := Nat.div_mul_le_self _ _

/-- The quotient is below 2^53 steps. -/
theorem quotient_lt (p : Nat) {q : Nat} (hq : 0 < q) :
    p * gridUnits < 2 * hiddenBit * (q * 2 ^ roundStep p q) := by
  have hlt : p * gridUnits / q < 2 ^ (roundStep p q + 53) :=
    lt_of_lt_of_le Nat.lt_log2_self (Nat.pow_le_pow_right (by decide) (by unfold roundStep; omega))
  calc p * gridUnits < 2 ^ (roundStep p q + 53) * q := (Nat.div_lt_iff_lt_mul hq).1 hlt
    _ = 2 * hiddenBit * (q * 2 ^ roundStep p q) := by rw [pow_add, hiddenBit_eq]; ring

theorem roundSteps_le (p : Nat) {q : Nat} (hq : 0 < q) : roundSteps p q ≤ 2 * hiddenBit := by
  have hQ : 0 < q * 2 ^ roundStep p q := by positivity
  calc roundSteps p q ≤ nearestEven (2 * hiddenBit * (q * 2 ^ roundStep p q)) (q * 2 ^ roundStep p q) :=
        nearestEven_mono hQ (quotient_lt p hq).le
    _ = 2 * hiddenBit := nearestEven_exact _ hQ

theorem hiddenBit_le_roundSteps (p : Nat) {q : Nat} (hq : 0 < q) :
    roundStep p q = 0 ∨ hiddenBit ≤ roundSteps p q := by
  have hQ : 0 < q * 2 ^ roundStep p q := by positivity
  refine (hiddenBit_le_quotient p q).imp_right fun h => ?_
  calc hiddenBit = nearestEven (hiddenBit * (q * 2 ^ roundStep p q)) (q * 2 ^ roundStep p q) :=
        (nearestEven_exact _ hQ).symm
    _ ≤ roundSteps p q := nearestEven_mono hQ h

/-- The pattern below infinity is that many steps in that binade. -/
theorem roundMag_of_isFinite {neg : Bool} {p q : Nat} (hfin : isFinite (roundTo neg p q) = true) :
    roundMag p q = roundStep p q * hiddenBit + roundSteps p q := by
  rw [isFinite_iff, magBits_roundTo, roundMag_eq] at hfin
  rw [roundMag_eq]
  omega

/-- A rounded magnitude is its number of steps, a carry into the next binade included. -/
theorem gridMag_roundTo {neg : Bool} {p q : Nat} (hq : 0 < q) (hfin : isFinite (roundTo neg p q) = true) :
    gridMag (roundTo neg p q) = roundSteps p q * 2 ^ roundStep p q := by
  have hmag : magBits (roundTo neg p q) = roundStep p q * hiddenBit + roundSteps p q := by
    rw [magBits_roundTo, roundMag_of_isFinite hfin]
  rcases (roundSteps_le p hq).lt_or_eq with hlt | heq
  · exact gridMag_of_magBits hmag hlt (hiddenBit_le_roundSteps p hq)
  · have hcarry : magBits (roundTo neg p q) = (roundStep p q + 1) * hiddenBit + hiddenBit := by
      rw [hmag, heq]; ring
    rw [gridMag_of_magBits hcarry (by decide) (.inr le_rfl), heq]
    ring

/-- A grid magnitude that is no whole number of steps `2^k` is below the binade of step `k`. -/
theorem gridMag_dvd_or_lt (a : F64) (k : Nat) : 2 ^ k ∣ gridMag a ∨ (k ≠ 0 ∧ gridMag a < hiddenBit * 2 ^ k) := by
  obtain ⟨k', c, -, hc, -, hgrid⟩ := exists_gridMag a
  rw [hgrid]
  rcases Nat.lt_or_ge k' k with hlt | hge
  · refine .inr ⟨by omega, ?_⟩
    calc c * 2 ^ k' < 2 * hiddenBit * 2 ^ k' := Nat.mul_lt_mul_of_pos_right hc (by positivity)
      _ = hiddenBit * 2 ^ (k' + 1) := by ring
      _ ≤ hiddenBit * 2 ^ k := Nat.mul_le_mul_left _ (Nat.pow_le_pow_right (by decide) hlt)
  · exact .inl (Dvd.dvd.mul_left (Nat.pow_dvd_pow 2 hge) c)

/-- The quotient `p / q` in steps of its binade, which is what is rounded to a whole number. -/
def inSteps (p q : Nat) : ℚ := (p * gridUnits : Nat) / (q * 2 ^ roundStep p q : Nat)

theorem inSteps_mul (p : Nat) {q : Nat} (hq : 0 < q) : inSteps p q * 2 ^ roundStep p q = p / q * gridUnits := by
  have hq' : (q : ℚ) ≠ 0 := by exact_mod_cast hq.ne'
  rw [inSteps]
  push_cast
  field_simp

/-- The distance of a number of steps to the quotient, in grid units. -/
theorem abs_steps_sub (p : Nat) {q : Nat} (hq : 0 < q) (z : ℚ) :
    |z * 2 ^ roundStep p q - p / q * gridUnits| = |z - inSteps p q| * 2 ^ roundStep p q := by
  rw [← inSteps_mul p hq, ← sub_mul, abs_mul, abs_of_pos (by positivity : (0 : ℚ) < 2 ^ roundStep p q)]

theorem hiddenBit_le_inSteps (p : Nat) {q : Nat} (hq : 0 < q) : roundStep p q = 0 ∨ (hiddenBit : ℚ) ≤ inSteps p q := by
  have hQ : 0 < q * 2 ^ roundStep p q := by positivity
  refine (hiddenBit_le_quotient p q).imp_right fun h => ?_
  rw [inSteps, le_div_iff₀ (by exact_mod_cast hQ)]
  exact_mod_cast h

/-- No datum, of either sign, is nearer to `p / q` than the number of steps it is rounded to; one that is as near and
is not the same number leaves an even number of steps. -/
theorem roundSteps_nearest (p : Nat) {q : Nat} (hq : 0 < q) {y : Int} {a : F64} (hy : y.natAbs = gridMag a) :
    |(roundSteps p q * 2 ^ roundStep p q : ℚ) - p / q * gridUnits| ≤ |(y : ℚ) - p / q * gridUnits|
    ∧ (|(roundSteps p q * 2 ^ roundStep p q : ℚ) - p / q * gridUnits| = |(y : ℚ) - p / q * gridUnits| →
        (y : ℚ) ≠ roundSteps p q * 2 ^ roundStep p q → roundSteps p q % 2 = 0) := by
  have hstep : (0 : ℚ) < 2 ^ roundStep p q := by positivity
  have hnearest := nearestEven_nearest (p * gridUnits) (show 0 < q * 2 ^ roundStep p q by positivity)
  rw [← roundSteps, ← inSteps] at hnearest
  obtain ⟨z, hz⟩ : ∃ z : ℚ, (y : ℚ) = z * 2 ^ roundStep p q :=
    ⟨y / 2 ^ roundStep p q, (div_mul_cancel₀ _ hstep.ne').symm⟩
  rw [hz, abs_steps_sub p hq, abs_steps_sub p hq, mul_le_mul_iff_left₀ hstep, mul_left_inj' hstep.ne', Ne,
    mul_left_inj' hstep.ne']
  rcases gridMag_dvd_or_lt a (roundStep p q) with hdvd | ⟨hk, hlt⟩
  · obtain ⟨m, hm⟩ : (2 ^ roundStep p q : Int) ∣ y := by
      rw [← Int.natAbs_dvd_natAbs, hy, Int.natAbs_pow]
      exact hdvd
    have hzm : z = m := by
      rw [← mul_left_inj' hstep.ne', ← hz, hm]
      push_cast
      ring
    obtain ⟨hle, heven⟩ := hnearest m
    rw [hzm]
    exact ⟨hle, fun heq hne => heven heq fun h => hne (by rw [h, Int.cast_natCast])⟩
  · have hbinade := (hiddenBit_le_inSteps p hq).resolve_left hk
    have hbelow : z < hiddenBit := by
      have : y < (hiddenBit * 2 ^ roundStep p q : Nat) := by omega
      rw [← mul_lt_mul_iff_left₀ hstep, ← hz]
      exact_mod_cast this
    have hstrict : |(roundSteps p q : ℚ) - inSteps p q| < |z - inSteps p q| :=
      calc |(roundSteps p q : ℚ) - inSteps p q|
          ≤ |(hiddenBit : ℚ) - inSteps p q| := (hnearest hiddenBit).1
        _ = inSteps p q - hiddenBit := by rw [abs_sub_comm, abs_of_nonneg (sub_nonneg.2 hbinade)]
        _ < inSteps p q - z := sub_lt_sub_left hbelow _
        _ ≤ |z - inSteps p q| := by rw [abs_sub_comm]; exact le_abs_self _
    exact ⟨hstrict.le, fun heq => absurd heq hstrict.ne⟩

/-! ### Overflow -/

/-- Rounding stays finite exactly below half a unit in the last place above the largest finite datum: the quotient
`N / (q * 2^k)` with its number of steps `n` in each of the binades below, at and above that of `2^1024`. -/
theorem isFinite_roundTo_iff (neg : Bool) (p : Nat) {q : Nat} (hq : 0 < q) :
    isFinite (roundTo neg p q) = true ↔ p * gridUnits < (2 ^ 54 - 1) * (q * 2 ^ 2044) := by
  have hH : hiddenBit = 2 ^ 52 := hiddenBit_eq
  have hpattern : isFinite (roundTo neg p q) = true ↔
      roundStep p q * hiddenBit + roundSteps p q < 2047 * hiddenBit := by
    rw [isFinite_iff, magBits_roundTo, roundMag_eq, show infBits = 2047 * hiddenBit by decide]
    omega
  have hlt := quotient_lt p hq
  have hle := roundSteps_le p hq
  have hge := hiddenBit_le_roundSteps p hq
  have hquot := hiddenBit_le_quotient p q
  -- the exponent stands as a variable, so that no tactic evaluates the power
  obtain ⟨m, hm⟩ : ∃ m, m = 2044 := ⟨_, rfl⟩
  rw [← hm]
  have hpos (l : Nat) : 0 < q * 2 ^ l := by positivity
  have hpow {k l : Nat} (h : k ≤ l) : q * 2 ^ k ≤ q * 2 ^ l :=
    Nat.mul_le_mul_left _ (Nat.pow_le_pow_right (by decide) h)
  have hadd (j : Nat) : q * 2 ^ (m + j) = 2 ^ j * (q * 2 ^ m) := by rw [pow_add]; ring
  have hR := hpos m
  obtain ⟨hlow, hhigh, heven⟩ := nearestEven_spec (p * gridUnits) (hpos (roundStep p q))
  rw [← roundSteps] at hlow hhigh heven
  rw [hpattern]
  rw [hH] at *
  generalize roundSteps p q = n at *
  generalize roundStep p q = k at *
  generalize p * gridUnits = N at *
  rcases lt_trichotomy k (m + 1) with hk | rfl | hk
  · have hmono := hpow (show k ≤ m by omega)
    generalize q * 2 ^ m = R at *
    generalize q * 2 ^ k = Q at *
    exact ⟨fun _ => by omega, fun _ => by omega⟩
  · rw [hadd 1] at hlow hhigh heven
    clear hlt hquot
    generalize q * 2 ^ m = R at *
    constructor
    · intro hsteps
      by_contra hN
      have hn : 2 ^ 54 - 1 ≤ 2 * n + 1 := Nat.le_of_mul_le_mul_right (c := 2 ^ 1 * R) (by omega) (by omega)
      obtain rfl : n = 2 ^ 53 - 1 := by omega
      exact absurd (heven (.inl (by omega))) (by decide)
    · intro hN
      by_contra hsteps
      obtain rfl : n = 2 ^ 53 := by omega
      omega
  · have hmono := hpow (show m + 2 ≤ k by omega)
    rw [hadd 2] at hmono
    generalize q * 2 ^ m = R at *
    generalize q * 2 ^ k = Q at *
    exact ⟨fun _ => by omega, fun _ => by omega⟩

end Sys2Proof.Machine
end

section
/-! PROOFS. Correct rounding in terms of values (00_scope.md R11): what `roundTo` gives is the rounding of the rational
that it is asked for, and the four operations ask for the exact result. -/

namespace Sys2Proof.Machine

/-! ### Signs and values -/

/-- The sign of a datum as a factor. -/
def sgn (neg : Bool) : ℚ := if neg then -1 else 1

@[simp] theorem sgn_true : sgn true = -1 := rfl
@[simp] theorem sgn_false : sgn false = 1 := rfl

theorem sgn_mul_self (neg : Bool) : sgn neg * sgn neg = 1 := by cases neg <;> simp

theorem abs_sgn_mul (neg : Bool) (x : ℚ) : |sgn neg * x| = |x| := by cases neg <;> simp

/-- Signs multiply. -/
theorem sgn_bne (neg neg' : Bool) : sgn (neg != neg') = sgn neg * sgn neg' := by
  cases neg <;> cases neg' <;> simp

theorem gridUnits_cast_pos : (0 : ℚ) < gridUnits := by exact_mod_cast gridUnits_pos

theorem gridUnits_eq : gridUnits = 2 ^ 1074 := by
  have hshift (n : Nat) : 1 <<< n = 2 ^ n := Nat.one_shiftLeft n
  exact hshift 1074

theorem gridUnits_cast : (gridUnits : ℚ) = 2 ^ 1074 := by
  have hcast (n : Nat) : ((2 ^ n : Nat) : ℚ) = 2 ^ n := Nat.cast_pow 2 n
  rw [gridUnits_eq, hcast]

theorem grid_eq_sgn_mul (a : F64) : (grid a : ℚ) = sgn (signBit a) * gridMag a := by
  unfold grid sgn
  split_ifs <;> simp

theorem val_eq_sgn_mul (a : F64) : val a = sgn (signBit a) * (gridMag a / gridUnits) := by
  rw [val, grid_eq_sgn_mul, mul_div_assoc]

theorem abs_val (a : F64) : |val a| = gridMag a / gridUnits := by
  rw [val_eq_sgn_mul, abs_sgn_mul, abs_of_nonneg (by positivity)]

theorem val_eq_zero_iff (a : F64) : val a = 0 ↔ gridMag a = 0 := by
  rw [val, div_eq_zero_iff, or_iff_left gridUnits_cast_pos.ne', Int.cast_eq_zero, ← natAbs_grid, Int.natAbs_eq_zero]

/-! ### Rounding a signed quotient -/

/-- A rounded quotient is finite exactly below the bound of R11's overflow. -/
theorem isFinite_roundTo_iff_lt (neg : Bool) (p : Nat) {q : Nat} (hq : 0 < q) :
    isFinite (roundTo neg p q) = true ↔ (p / q : ℚ) < 2 ^ 1024 - 2 ^ 970 := by
  have hq' : (0 : ℚ) < q := by exact_mod_cast hq
  have hbound : (((2 ^ 54 - 1) * (q * 2 ^ 2044) : Nat) : ℚ) = (2 ^ 1024 - 2 ^ 970) * q * gridUnits := by
    rw [gridUnits_cast, show (1024 : Nat) = 970 + 54 from rfl, show (2044 : Nat) = 970 + 1074 from rfl, pow_add,
      pow_add, Nat.cast_mul, Nat.cast_mul, Nat.cast_mul, Nat.cast_pow, Nat.cast_pow, Nat.cast_ofNat]
    generalize (2 : ℚ) ^ 970 = x
    generalize (2 : ℚ) ^ 1074 = u
    push_cast
    ring
  rw [isFinite_roundTo_iff neg p hq, div_lt_iff₀ hq', ← mul_lt_mul_iff_left₀ gridUnits_cast_pos, ← hbound,
    ← Nat.cast_mul, Nat.cast_lt]

theorem val_roundTo {neg : Bool} {p q : Nat} (hq : 0 < q) (hfin : isFinite (roundTo neg p q) = true) :
    val (roundTo neg p q) = sgn neg * (roundSteps p q * 2 ^ roundStep p q / gridUnits) := by
  rw [val_eq_sgn_mul, signBit_roundTo, gridMag_roundTo hq hfin]
  push_cast
  rfl

/-- The fraction has the parity of the number of steps. -/
theorem fracBits_roundTo_mod_two {neg : Bool} {p q : Nat} (hfin : isFinite (roundTo neg p q) = true) :
    fracBits (roundTo neg p q) % 2 = roundSteps p q % 2 := by
  rw [fracBits, magBits_roundTo, roundMag_of_isFinite hfin, show hiddenBit = 2 ^ 52 from rfl]
  omega

/-- `roundTo` rounds the signed quotient it is given. -/
theorem roundsTo_roundTo (neg : Bool) (p : Nat) {q : Nat} (hq : 0 < q) :
    RoundsTo (sgn neg * (p / q)) (roundTo neg p q) := by
  have hnonneg : (0 : ℚ) ≤ p / q := by positivity
  have hfin := isFinite_roundTo_iff_lt neg p hq
  rw [RoundsTo, abs_sgn_mul, abs_of_nonneg hnonneg]
  refine ⟨fun hlt => ⟨hfin.2 hlt, fun c hc => ?_⟩, fun hge => ?_⟩
  · have hU := gridUnits_cast_pos
    have hscale (z : ℚ) : |sgn neg * (z / gridUnits) - sgn neg * (p / q)| = |z - p / q * gridUnits| / gridUnits := by
      rw [← mul_sub, abs_sgn_mul, ← abs_of_pos hU, ← abs_div, abs_of_pos hU, sub_div, mul_div_cancel_right₀ _ hU.ne']
    obtain ⟨y, hy, hyc⟩ : ∃ y : Int, y.natAbs = gridMag c ∧ (grid c : ℚ) = sgn neg * y := by
      cases neg with
      | true => exact ⟨- grid c, by rw [Int.natAbs_neg, natAbs_grid], by simp⟩
      | false => exact ⟨grid c, natAbs_grid c, by simp⟩
    obtain ⟨hle, heven⟩ := roundSteps_nearest p hq hy
    rw [val_roundTo hq (hfin.2 hlt), val, hyc, mul_div_assoc (sgn neg), hscale, hscale, div_le_div_iff_of_pos_right hU,
      div_left_inj' hU.ne']
    refine ⟨hle, fun heq hne => ?_⟩
    rw [fracBits_roundTo_mod_two (hfin.2 hlt)]
    exact heven heq fun h => hne (by rw [h])
  · have hnot : ¬ isFinite (roundTo neg p q) = true := mt hfin.1 (not_lt.2 hge)
    have hmag := magBits_eq_infBits (isNaN_roundTo neg p q) hnot
    have hpos : (0 : ℚ) < p / q :=
      lt_of_lt_of_le (sub_pos.2 (pow_lt_pow_right₀ one_lt_two (by decide))) hge
    have hsign : decide (sgn neg * (p / q : ℚ) < 0) = neg := by
      generalize (p / q : ℚ) = v at hpos
      cases neg <;> simp [hpos, hpos.le]
    rw [hsign]
    refine eq_of_sign_of_magBits ?_ (hmag.trans ?_)
    · rw [signBit_roundTo]
      cases neg <;> decide
    · cases neg <;> decide

/-- A whole number is its sign times its magnitude. -/
theorem intCast_eq_sgn_mul (g : Int) : (g : ℚ) = sgn (decide (g < 0)) * (g.natAbs : ℚ) := by
  rw [Nat.cast_natAbs, Int.cast_abs]
  by_cases h : g < 0
  · have h' : (g : ℚ) < 0 := by exact_mod_cast h
    simp [h, abs_of_neg h']
  · have h' : (0 : ℚ) ≤ g := by exact_mod_cast not_lt.1 h
    simp [h, abs_of_nonneg h']

/-- The rounding of a whole number of units. -/
theorem roundsTo_roundTo_int (g : Int) {q : Nat} (hq : 0 < q) :
    RoundsTo (g / q) (roundTo (decide (g < 0)) g.natAbs q) := by
  rw [intCast_eq_sgn_mul, mul_div_assoc]
  exact roundsTo_roundTo _ _ hq

/-- A rational is its sign times its magnitude. -/
theorem rat_eq_sgn_mul (v : ℚ) : v = sgn (decide (v < 0)) * (v.num.natAbs / v.den) := by
  have hnum := intCast_eq_sgn_mul v.num
  rw [decide_eq_decide.2 Rat.num_neg] at hnum
  rw [← mul_div_assoc, ← hnum, Rat.num_div_den]

/-- `roundQ` rounds the rational it is given. -/
theorem roundsTo_roundQ (v : ℚ) : RoundsTo v (roundQ v) := by
  have hround := roundsTo_roundTo (decide (v < 0)) v.num.natAbs v.pos
  rwa [← rat_eq_sgn_mul] at hround

/-! ### The operations -/

theorem isInf_eq_false_of_isFinite {a : F64} (h : isFinite a = true) : isInf a = false := by
  simpa [isInf] using ((isFinite_iff a).1 h).ne

theorem zero_eq_roundTo (neg : Bool) : zero neg = roundTo neg 0 gridUnits := by
  cases neg <;> decide +kernel

/-- `fadd` rounds the exact sum (R11). -/
theorem fadd_roundsTo {a b : F64} (ha : isFinite a = true) (hb : isFinite b = true) :
    RoundsTo (val a + val b) (fadd a b) := by
  have hsum : val a + val b = (grid a + grid b : Int) / gridUnits := by
    rw [val, val, ← add_div]; push_cast; rfl
  rw [hsum, fadd]
  simp only [isNaN_eq_false_of_isFinite ha, isNaN_eq_false_of_isFinite hb, isInf_eq_false_of_isFinite ha,
    isInf_eq_false_of_isFinite hb, Bool.or_false, Bool.false_eq_true, if_false]
  split_ifs with hzero
  · have hround := roundsTo_roundTo (signBit a && signBit b) 0 gridUnits_pos
    rw [Nat.cast_zero, zero_div, mul_zero, ← zero_eq_roundTo] at hround
    rwa [hzero, Int.cast_zero, zero_div]
  · exact roundsTo_roundTo_int _ gridUnits_pos

/-- Turning the sign bit turns the sign and leaves the magnitude. -/
theorem signBit_xor_sign (a : F64) : signBit (a ^^^ 0x8000000000000000) = !signBit a := by
  have hmsb : (0x8000000000000000 : F64).msb = true := by decide
  rw [signBit, BitVec.msb_xor, hmsb, Bool.xor_true, signBit]

theorem magBits_xor_sign (a : F64) : magBits (a ^^^ 0x8000000000000000) = magBits a := by
  have hmask : (0x8000000000000000 : F64).toNat = 2 ^ 63 := rfl
  rw [magBits, BitVec.toNat_xor, hmask, magBits, show (0x8000000000000000 : Nat) = 2 ^ 63 from rfl, Nat.xor_mod_two_pow,
    Nat.mod_self, Nat.xor_zero]

/-- A grid magnitude is read off the magnitude bits alone. -/
theorem gridMag_congr {a b : F64} (h : magBits a = magBits b) : gridMag a = gridMag b := by
  unfold gridMag expBits fracBits
  rw [h]

theorem val_xor_sign (a : F64) : val (a ^^^ 0x8000000000000000) = - val a := by
  rw [val_eq_sgn_mul, signBit_xor_sign, gridMag_congr (magBits_xor_sign a), val_eq_sgn_mul, ← neg_mul]
  cases signBit a <;> simp

theorem isFinite_xor_sign (a : F64) : isFinite (a ^^^ 0x8000000000000000) = isFinite a := by
  rw [isFinite, magBits_xor_sign, isFinite]

/-- `fsub` rounds the exact difference (R11). -/
theorem fsub_roundsTo {a b : F64} (ha : isFinite a = true) (hb : isFinite b = true) :
    RoundsTo (val a - val b) (fsub a b) := by
  rw [sub_eq_add_neg, ← val_xor_sign, fsub]
  exact fadd_roundsTo ha ((isFinite_xor_sign b).trans hb)

/-- `fmul` rounds the exact product (R11). -/
theorem fmul_roundsTo {a b : F64} (ha : isFinite a = true) (hb : isFinite b = true) :
    RoundsTo (val a * val b) (fmul a b) := by
  have hprod : val a * val b =
      sgn (signBit a != signBit b) * ((gridMag a * gridMag b : Nat) / (gridUnits * gridUnits : Nat)) := by
    rw [val_eq_sgn_mul, val_eq_sgn_mul, sgn_bne]
    push_cast
    ring
  rw [hprod, fmul]
  simp only [isNaN_eq_false_of_isFinite ha, isNaN_eq_false_of_isFinite hb, isInf_eq_false_of_isFinite ha,
    isInf_eq_false_of_isFinite hb, Bool.or_false, Bool.false_eq_true, if_false]
  exact roundsTo_roundTo _ _ (Nat.mul_pos gridUnits_pos gridUnits_pos)

/-- `fdiv` rounds the exact quotient by a divisor that is not 0 (R11). -/
theorem fdiv_roundsTo {a b : F64} (ha : isFinite a = true) (hb : isFinite b = true) (hne : val b ≠ 0) :
    RoundsTo (val a / val b) (fdiv a b) := by
  have hmag : gridMag b ≠ 0 := mt (val_eq_zero_iff b).2 hne
  have hquot : val a / val b = sgn (signBit a != signBit b) * ((gridMag a : Nat) / (gridMag b : Nat)) := by
    have hU := gridUnits_cast_pos.ne'
    have hm : (gridMag b : ℚ) ≠ 0 := by exact_mod_cast hmag
    have hs := sgn_mul_self (signBit b)
    have hs' : sgn (signBit b) ≠ 0 := left_ne_zero_of_mul (hs ▸ one_ne_zero)
    rw [val_eq_sgn_mul, val_eq_sgn_mul, sgn_bne, div_eq_iff (mul_ne_zero hs' (div_ne_zero hm hU))]
    field_simp
    rw [pow_two, hs, mul_one]
  rw [hquot, fdiv]
  simp only [isNaN_eq_false_of_isFinite ha, isNaN_eq_false_of_isFinite hb, isInf_eq_false_of_isFinite ha,
    isInf_eq_false_of_isFinite hb, hmag, Bool.or_false, Bool.false_eq_true, if_false]
  exact roundsTo_roundTo _ _ (Nat.pos_of_ne_zero hmag)

/-- Settles O56: each operation hands its exact result, as a signed quotient, to one rounding. -/
theorem arithmeticIsCorrectlyRounded : Obligations.ArithmeticIsCorrectlyRounded :=
  fun _ _ ha hb =>
    ⟨fadd_roundsTo ha hb, fsub_roundsTo ha hb, fmul_roundsTo ha hb, fun hne => fdiv_roundsTo ha hb hne⟩

end Sys2Proof.Machine
end

section
/-! PROOFS. What correct rounding gives (00_scope.md R11): a representable result is not moved, a result between two
representable numbers stays between them, and every result is moved by at most 2^-53 of its size. -/

namespace Sys2Proof.Machine

/-! ### Representable numbers -/

/-- A rational is the value of a finite datum. -/
def Representable (v : ℚ) : Prop := ∃ c : F64, isFinite c = true ∧ val c = v

theorem representable_val {a : F64} (h : isFinite a = true) : Representable (val a) := ⟨a, h, rfl⟩

/-- A finite datum is below the bound of overflow. -/
theorem abs_val_lt {a : F64} (h : isFinite a = true) : |val a| < 2 ^ 1024 - 2 ^ 970 := by
  have hround : isFinite (roundTo (signBit a) (gridMag a) gridUnits) = true := by rwa [roundTo_gridMag a h]
  have hmag := (isFinite_roundTo_iff_lt _ _ gridUnits_pos).1 hround
  rwa [abs_val]

theorem Representable.abs_lt {v : ℚ} (h : Representable v) : |v| < 2 ^ 1024 - 2 ^ 970 := by
  obtain ⟨c, hc, rfl⟩ := h
  exact abs_val_lt hc

/-- Numbers of moderate size are far from overflow. -/
theorem lt_overflow_of_le {x : ℚ} (h : x ≤ 2 ^ 64) : x < 2 ^ 1024 - 2 ^ 970 := by
  have hroom : (2 : ℚ) ^ 970 ≤ 2 ^ 1024 - 2 ^ 970 := by
    rw [le_sub_iff_add_le, ← two_mul, ← pow_succ']
    exact pow_le_pow_right₀ one_le_two (by decide)
  calc x ≤ 2 ^ 64 := h
    _ < 2 ^ 970 := pow_lt_pow_right₀ one_lt_two (by decide)
    _ ≤ _ := hroom

/-- `n / 2^j` is representable for a whole `n` below `2^53`. -/
theorem representable_dyadic (n : Int) {j : Nat} (hn : |n| < 2 ^ 53) (hj : j ≤ 1022) :
    Representable (n / 2 ^ j) := by
  have hn' : n.natAbs < 2 ^ 53 := by
    rw [abs_lt] at hn
    omega
  have hq : 0 < 2 ^ j := Nat.two_pow_pos j
  refine ⟨roundTo (decide (n < 0)) n.natAbs (2 ^ j), ?_, ?_⟩
  · rw [isFinite_roundTo_iff_lt _ _ hq]
    refine lt_overflow_of_le ?_
    calc (n.natAbs / (2 ^ j : Nat) : ℚ) ≤ n.natAbs := div_le_self (by positivity) (by exact_mod_cast hq)
      _ ≤ 2 ^ 64 := by exact_mod_cast hn'.le.trans (by decide)
  · have hval := val_roundTo_dyadic (neg := decide (n < 0)) hq rfl hn' hj
    rw [← sgn] at hval
    rw [hval, ← mul_div_assoc, ← intCast_eq_sgn_mul, Nat.cast_pow, Nat.cast_ofNat]

theorem representable_natCast {n : Nat} (hn : n < 2 ^ 53) : Representable n := by
  have hrep := representable_dyadic n (j := 0) (by rw [Nat.abs_cast]; exact_mod_cast hn) (by decide)
  rwa [pow_zero, div_one, Int.cast_natCast] at hrep

theorem representable_zero : Representable 0 := Nat.cast_zero (R := ℚ) ▸ representable_natCast (by decide)

theorem representable_ofNat (n : Nat) [n.AtLeastTwo] (hn : n < 2 ^ 53) : Representable (OfNat.ofNat n) :=
  representable_natCast hn

/-! ### Results of a rounding -/

section
variable {v : ℚ} {r : F64} (h : RoundsTo v r)
include h

/-- A representable result is not moved. -/
theorem RoundsTo.exact (hv : Representable v) : isFinite r = true ∧ val r = v := by
  obtain ⟨hfin, hnear⟩ := h.1 hv.abs_lt
  obtain ⟨c, hc, rfl⟩ := hv
  have hzero := (hnear c hc).1
  rw [sub_self, abs_zero] at hzero
  exact ⟨hfin, sub_eq_zero.1 (abs_nonpos_iff.1 hzero)⟩

/-- A result between representable numbers stays between them. -/
theorem RoundsTo.between {lo hi : ℚ} (hlo : Representable lo) (hhi : Representable hi) (hge : lo ≤ v) (hle : v ≤ hi) :
    FiniteIn lo hi r := by
  have hbound : |v| < 2 ^ 1024 - 2 ^ 970 :=
    lt_of_le_of_lt (abs_le_max_abs_abs hge hle) (max_lt hlo.abs_lt hhi.abs_lt)
  obtain ⟨hfin, hnear⟩ := h.1 hbound
  obtain ⟨c, hc, rfl⟩ := hlo
  obtain ⟨d, hd, rfl⟩ := hhi
  refine ⟨hfin, ?_, ?_⟩
  · by_contra hlt
    have hnear' := (hnear c hc).1
    rw [abs_of_nonpos (by linarith), abs_of_nonpos (by linarith)] at hnear'
    linarith
  · by_contra hgt
    have hnear' := (hnear d hd).1
    rw [abs_of_nonneg (by linarith), abs_of_nonneg (by linarith)] at hnear'
    linarith

end

theorem hiddenBit_cast : (hiddenBit : ℚ) = 2 ^ 52 := by rw [hiddenBit_eq, Nat.cast_pow, Nat.cast_ofNat]

/-- What is rounded to is at most half a step away, which is 2^-53 of any bound on the quotient that lies above the
subnormal numbers. -/
theorem abs_val_roundTo_sub_le {neg : Bool} {p q : Nat} {B : ℚ} (hq : 0 < q) (hle : (p / q : ℚ) ≤ B)
    (hnormal : 1 / 2 ^ 1022 ≤ B) (hfin : isFinite (roundTo neg p q) = true) :
    |val (roundTo neg p q) - sgn neg * (p / q)| ≤ B / 2 ^ 53 := by
  have hU := gridUnits_cast_pos
  have hstep : (0 : ℚ) < 2 ^ roundStep p q := by positivity
  have hhalf := (abs_nearestEven_sub_le (p * gridUnits) (show 0 < q * 2 ^ roundStep p q by positivity)).1
  rw [← roundSteps, ← inSteps] at hhalf
  have hdist : |val (roundTo neg p q) - sgn neg * (p / q)| * gridUnits ≤ 1 / 2 * 2 ^ roundStep p q := by
    rw [val_roundTo hq hfin, ← mul_sub, abs_sgn_mul, ← abs_of_pos hU, ← abs_mul, abs_of_pos hU, sub_mul,
      div_mul_cancel₀ _ hU.ne', abs_steps_sub p hq]
    exact mul_le_mul_of_nonneg_right hhalf hstep.le
  have hbinade : 2 ^ 52 * 2 ^ roundStep p q ≤ B * gridUnits := by
    rcases hiddenBit_le_inSteps p hq with hk | hk
    · rw [hk, pow_zero, mul_one, gridUnits_cast]
      calc (2 : ℚ) ^ 52 = 1 / 2 ^ 1022 * 2 ^ 1074 := by
            rw [one_div_mul_eq_div, eq_div_iff (by positivity), ← pow_add]
        _ ≤ B * 2 ^ 1074 := mul_le_mul_of_nonneg_right hnormal (by positivity)
    · calc 2 ^ 52 * 2 ^ roundStep p q ≤ inSteps p q * 2 ^ roundStep p q :=
            mul_le_mul_of_nonneg_right (hiddenBit_cast ▸ hk) hstep.le
        _ = p / q * gridUnits := inSteps_mul p hq
        _ ≤ B * gridUnits := mul_le_mul_of_nonneg_right hle hU.le
  refine le_of_mul_le_mul_right ?_ hU
  linarith

/-- Numbers of moderate size are far from the subnormal numbers. -/
theorem normal_of_le {x : ℚ} (h : 1 / 2 ^ 64 ≤ x) : 1 / 2 ^ 1022 ≤ x :=
  (one_div_le_one_div_of_le (by positivity) (pow_le_pow_right₀ one_le_two (by decide))).trans h

/-- Every result of moderate size is moved by at most 2^-53 of any bound on it above the subnormal numbers. -/
theorem RoundsTo.error {v B : ℚ} {r : F64} (h : RoundsTo v r) (hle : |v| ≤ B) (hnormal : 1 / 2 ^ 1022 ≤ B)
    (hB : B ≤ 2 ^ 64) : isFinite r = true ∧ |val r - v| ≤ B / 2 ^ 53 := by
  have hlt : |v| < 2 ^ 1024 - 2 ^ 970 := lt_overflow_of_le (hle.trans hB)
  obtain ⟨hfin, hnear⟩ := h.1 hlt
  have habs : (v.num.natAbs / v.den : ℚ) = |v| := by
    conv_rhs => rw [rat_eq_sgn_mul v]
    rw [abs_sgn_mul, abs_of_nonneg (by positivity)]
  have hround : isFinite (roundQ v) = true := ((roundsTo_roundQ v).1 hlt).1
  have herror := abs_val_roundTo_sub_le v.pos (habs.trans_le hle) hnormal hround
  rw [← rat_eq_sgn_mul] at herror
  exact ⟨hfin, ((hnear _ hround).1).trans herror⟩

/-! ### Equal values and equal bits -/

/-- Magnitudes determine their patterns. -/
theorem magBits_eq_of_gridMag_eq {a b : F64} (h : gridMag a = gridMag b) : magBits a = magBits b := by
  rcases lt_trichotomy (magBits a) (magBits b) with hlt | heq | hgt
  · exact absurd h (gridMag_lt_of_magBits_lt hlt).ne
  · exact heq
  · exact absurd h (gridMag_lt_of_magBits_lt hgt).ne'

theorem val_lt_val_iff (a b : F64) : val a < val b ↔ grid a < grid b := by
  rw [← not_le, val_le_val_iff, not_le]

theorem val_eq_val_iff (a b : F64) : val a = val b ↔ grid a = grid b := by
  rw [le_antisymm_iff, val_le_val_iff, val_le_val_iff, ← le_antisymm_iff]

/-- The two zeros apart, a value has one datum. -/
theorem eq_of_val_eq {a b : F64} (h : val a = val b) (hne : val b ≠ 0) : a = b := by
  have hgrid := (val_eq_val_iff a b).1 h
  have hmag : gridMag a = gridMag b := by rw [← natAbs_grid, hgrid, natAbs_grid]
  have hmag0 : gridMag b ≠ 0 := mt (val_eq_zero_iff b).2 hne
  refine eq_of_sign_of_magBits ?_ (magBits_eq_of_gridMag_eq hmag)
  have hneg := grid_neg_iff a
  rw [hgrid, grid_neg_iff b, hmag] at hneg
  rw [Bool.eq_iff_iff]
  simpa [hmag0] using hneg.symm

end Sys2Proof.Machine
end

section
/-! PROOFS. Comparisons and conversions (00_scope.md R11): the order of the data is that of their values, and `ffloor`,
`f2n`, `n2f` and `fabs` answer with representable numbers, so none of them rounds. -/

namespace Sys2Proof.Machine

theorem flt_iff (a b : F64) : flt a b = true ↔ isNaN a = false ∧ isNaN b = false ∧ val a < val b := by
  simp [flt, val_lt_val_iff, and_assoc]

/-- Settles O57: each comparison asks for two data that are no NaN and then for the order of the values. -/
theorem comparisonsAreOfValues : Obligations.ComparisonsAreOfValues := by
  intro a b
  constructor
  · rintro (h | h) <;> simp [flt, fle, fgt, fge, h]
  · intro ha hb
    have hna := isNaN_eq_false_of_isFinite ha
    have hnb := isNaN_eq_false_of_isFinite hb
    refine ⟨?_, ?_, ?_, ?_⟩
    · simp [flt_iff, hna, hnb]
    · simp [fle_iff, hna, hnb]
    · simp [fgt, flt_iff, hna, hnb]
    · simp [fge, fle_iff, hna, hnb]

/-- The floor that the model takes on the grid is that of the value. -/
theorem floorInt_eq (a : F64) : floorInt a = ⌊val a⌋ := by
  rw [floorInt, val, Rat.floor_intCast_div_natCast]

/-- The floor of a finite datum is representable: a datum of 2^53 or more is whole itself. -/
theorem representable_floor {a : F64} (h : isFinite a = true) : Representable ((⌊val a⌋ : Int) : ℚ) := by
  have hU := gridUnits_cast_pos
  obtain ⟨u, hu⟩ : ∃ u, gridUnits = 2 ^ u := ⟨_, gridUnits_eq⟩
  rcases gridMag_dvd_or_lt a u with hdvd | ⟨-, hlt⟩
  · obtain ⟨m, hm⟩ : (gridUnits : Int) ∣ grid a := by
      rw [← Int.natAbs_dvd_natAbs, natAbs_grid, Int.natAbs_natCast, hu]
      exact hdvd
    have hwhole : val a = m := by
      rw [val, hm, Int.cast_mul, Int.cast_natCast, mul_div_cancel_left₀ _ hU.ne']
    have hrep := representable_val h
    rwa [hwhole, Int.floor_intCast, ← hwhole]
  · have hsmall : |val a| < 2 ^ 52 := by
      rw [abs_val, div_lt_iff₀ hU]
      rw [← hu] at hlt
      rw [← hiddenBit_cast, ← Nat.cast_mul]
      exact Nat.cast_lt.2 hlt
    obtain ⟨hlow, hhigh⟩ := abs_lt.1 hsmall
    have hfloor : |⌊val a⌋| < 2 ^ 53 := by
      have h1 : -2 ^ 52 ≤ ⌊val a⌋ := Int.le_floor.2 (by push_cast; exact hlow.le)
      have h2 : ⌊val a⌋ < 2 ^ 52 := Int.floor_lt.2 (by push_cast; exact hhigh)
      rw [abs_lt]
      omega
    have hrep := representable_dyadic ⌊val a⌋ hfloor (Nat.zero_le 1022)
    rwa [pow_zero, div_one] at hrep

/-- `ffloor` is exact (R11). -/
theorem val_ffloor {a : F64} (h : isFinite a = true) : isFinite (ffloor a) = true ∧ val (ffloor a) = ⌊val a⌋ := by
  have hround := roundsTo_roundTo_int (floorInt a) Nat.one_pos
  rw [Nat.cast_one, div_one, floorInt_eq] at hround
  rw [ffloor, if_pos h, floorInt_eq]
  exact hround.exact (representable_floor h)

theorem f2n_eq (a : F64) : f2n a = ⌊val a⌋.toNat := by rw [f2n, floorInt_eq]

/-- `n2f` is exact below 2^53 (R11). -/
theorem val_n2f {n : Nat} (h : n < 2 ^ 53) : isFinite (n2f n) = true ∧ val (n2f n) = n := by
  have hround := roundsTo_roundTo false n Nat.one_pos
  rw [sgn_false, one_mul, Nat.cast_one, div_one] at hround
  exact hround.exact (representable_natCast h)

theorem magBits_fabs (a : F64) : magBits (fabs a) = magBits a := by
  have hmask : (0x7FFFFFFFFFFFFFFF : F64).toNat = 2 ^ 63 - 1 := rfl
  have h63 : (0x8000000000000000 : Nat) = 2 ^ 63 := rfl
  rw [magBits, fabs, BitVec.toNat_and, hmask, Nat.and_two_pow_sub_one_eq_mod, h63, Nat.mod_mod, magBits, h63]

theorem signBit_fabs (a : F64) : signBit (fabs a) = false := by
  have hmsb : (0x7FFFFFFFFFFFFFFF : F64).msb = false := by decide
  rw [signBit, fabs, BitVec.msb_and, hmsb, Bool.and_false]

/-- `fabs` is exact (R11). -/
theorem val_fabs (a : F64) : val (fabs a) = |val a| := by
  rw [val_eq_sgn_mul, signBit_fabs, gridMag_congr (magBits_fabs a), sgn_false, one_mul, abs_val]

theorem isFinite_fabs (a : F64) : isFinite (fabs a) = isFinite a := by rw [isFinite, magBits_fabs, isFinite]

/-- Settles O58: each of the four is exact. -/
theorem conversionsAreExact : Obligations.ConversionsAreExact := by
  refine ⟨fun a => val_ffloor, fun a n _ hval => ?_, fun n => val_n2f, fun a ha => ?_⟩
  · rw [f2n_eq, hval, Int.floor_natCast, Int.toNat_natCast]
  · exact ⟨(isFinite_fabs a).trans ha, val_fabs a⟩

end Sys2Proof.Machine
end

section
/-! PROOFS. Exact steps of the quantizers in binary64 (41_uniform_quantizer.md R116, R117; 42_meter_based_quantizer.md
R133, R134). A step whose exact result is representable is not rounded, so a chain of such steps is followed by its
values alone. -/

namespace Sys2Proof.Machine

/-! ### Data with a known value -/

/-- A datum is finite and has the value `x`. -/
structure HasVal (a : F64) (x : ℚ) : Prop where
  fin : isFinite a = true
  val_eq : val a = x

theorem HasVal.congr {a : F64} {x y : ℚ} (h : HasVal a x) (hxy : x = y) : HasVal a y := hxy ▸ h

theorem HasVal.representable {a : F64} {x : ℚ} (h : HasVal a x) : Representable x := ⟨a, h.fin, h.val_eq⟩

theorem RoundsTo.hasVal {v : ℚ} {r : F64} (h : RoundsTo v r) (hv : Representable v) : HasVal r v :=
  ⟨(h.exact hv).1, (h.exact hv).2⟩

/-- A result that is computed to be a representable number is that number. -/
theorem RoundsTo.hasVal_of_eq {v w : ℚ} {r : F64} (h : RoundsTo v r) (hvw : v = w) (hw : Representable w) :
    HasVal r w := by
  subst hvw
  exact h.hasVal hw

section
variable {a b : F64} {x y : ℚ} (ha : HasVal a x) (hb : HasVal b y)
include ha hb

theorem HasVal.fadd_roundsTo : RoundsTo (x + y) (fadd a b) := by
  rw [← ha.val_eq, ← hb.val_eq]
  exact Machine.fadd_roundsTo ha.fin hb.fin

theorem HasVal.fmul_roundsTo : RoundsTo (x * y) (fmul a b) := by
  rw [← ha.val_eq, ← hb.val_eq]
  exact Machine.fmul_roundsTo ha.fin hb.fin

theorem HasVal.fdiv_roundsTo (hy : y ≠ 0) : RoundsTo (x / y) (fdiv a b) := by
  rw [← ha.val_eq, ← hb.val_eq]
  exact Machine.fdiv_roundsTo ha.fin hb.fin (hb.val_eq ▸ hy)

end

theorem hasVal_n2f {n : Nat} (h : n < 2 ^ 53) : HasVal (n2f n) n := ⟨(val_n2f h).1, (val_n2f h).2⟩

theorem HasVal.fabs {a : F64} {x : ℚ} (h : HasVal a x) : HasVal (fabs a) |x| :=
  ⟨(isFinite_fabs a).trans h.fin, by rw [val_fabs, h.val_eq]⟩

/-- The floor of a value, as the index it is taken for. -/
theorem HasVal.floorNat {a : F64} {x : ℚ} (h : HasVal a x) : f2n (ffloor a) = ⌊x⌋.toNat := by
  rw [f2n_eq, (val_ffloor h.fin).2, Int.floor_intCast, h.val_eq]

theorem HasVal.fgt_iff {a b : F64} {x y : ℚ} (ha : HasVal a x) (hb : HasVal b y) : fgt a b = true ↔ y < x := by
  rw [fgt, flt_iff, ha.val_eq, hb.val_eq]
  simp [isNaN_eq_false_of_isFinite ha.fin, isNaN_eq_false_of_isFinite hb.fin]

/-- A clamp does not move what is between its ends (R11). -/
theorem fclamp_of_between {a lo hi : F64} (hge : val lo ≤ val a) (hle : val a ≤ val hi) : fclamp a lo hi = a := by
  have hlo : flt a lo = false := by
    rw [Bool.eq_false_iff, Ne, flt_iff]
    exact fun h => absurd h.2.2 (not_lt.2 hge)
  have hhi : fgt a hi = false := by
    rw [Bool.eq_false_iff, Ne, fgt, flt_iff]
    exact fun h => absurd h.2.2 (not_lt.2 hle)
  simp [fclamp, hlo, hhi]

/-- A datum has the value that names it, the two zeros apart. -/
theorem HasVal.eq {a b : F64} {x : ℚ} (ha : HasVal a x) (hb : HasVal b x) (hx : x ≠ 0) : a = b :=
  eq_of_val_eq (ha.val_eq.trans hb.val_eq.symm) (hb.val_eq ▸ hx)

/-- A number written as `n / 2^j` is representable. -/
theorem representable_of_eq {v : ℚ} (n : Int) (j : Nat) (h : v = n / 2 ^ j) (hn : |n| < 2 ^ 53) (hj : j ≤ 1022) :
    Representable v := h ▸ representable_dyadic n hn hj

/-- An odd multiple of a small number over a power of two is representable: every step at a centre gives one. -/
theorem representable_odd_mul (i k : Nat) {j : Nat} (h : (2 * i + 1) * k < 2 ^ 53) (hj : j ≤ 1022) :
    Representable ((2 * i + 1) * k / 2 ^ j) := by
  refine representable_of_eq ((2 * i + 1) * k : Nat) j ?_ ?_ hj
  · push_cast; rfl
  · rw [Nat.abs_cast]; exact_mod_cast h

theorem representable_odd (i : Nat) {j : Nat} (h : 2 * i + 1 < 2 ^ 53) (hj : j ≤ 1022) :
    Representable ((2 * i + 1) / 2 ^ j) := by
  have hrep := representable_odd_mul i 1 (by omega) hj
  rwa [Nat.cast_one, mul_one] at hrep

/-! ### The literals -/

theorem hasVal_lit90 : HasVal lit90 90 := ⟨by decide, val_lit90⟩
theorem hasVal_litNeg90 : HasVal litNeg90 (-90) := ⟨by decide, val_litNeg90⟩
theorem hasVal_lit180 : HasVal lit180 180 := ⟨by decide, val_lit180⟩
theorem hasVal_litNeg180 : HasVal litNeg180 (-180) := ⟨by decide, val_litNeg180⟩
theorem hasVal_lit360 : HasVal lit360 360 := ⟨by decide, by decide +kernel⟩
theorem hasVal_litHalf : HasVal litHalf (1 / 2) := ⟨by decide, by decide +kernel⟩
theorem hasVal_lit1 : HasVal lit1 1 := ⟨by decide, by decide +kernel⟩
theorem hasVal_lit89 : HasVal lit89 89 := ⟨by decide, by decide +kernel⟩
theorem hasVal_lit111320 : HasVal lit111320 111320 := ⟨by decide, by decide +kernel⟩
theorem hasVal_litLatCells : HasVal litLatCells (2 ^ 22) := ⟨by decide, by decide +kernel⟩
theorem hasVal_litLonCells : HasVal litLonCells (2 ^ 23) := ⟨by decide, by decide +kernel⟩

/-- `CELL_SIZE_M`, 626175 / 2^17 (R131). -/
theorem hasVal_cellSize : HasVal 0x40131BFE00000000 (626175 / 2 ^ 17) := ⟨by decide, by decide +kernel⟩

/-! ### The centre of a cell -/

/-- The centre of cell `i` of an axis of `2^e` cells of 45 / 2^20 degrees that is symmetric about 0. -/
def cellCentre (e i : Nat) : ℚ := -(45 * 2 ^ e) / 2 ^ 21 + (2 * i + 1) * 45 / 2 ^ 21

/-- The sum of an index and a half. -/
theorem hasVal_indexHalf {i : Nat} (hi : i < 2 ^ 23) : HasVal (fadd (n2f i) litHalf) ((2 * i + 1) / 2 ^ 1) :=
  ((hasVal_n2f (show i < 2 ^ 53 by omega)).fadd_roundsTo hasVal_litHalf).hasVal_of_eq (by ring)
    (representable_odd i (by omega) (by decide))

/-- A centre is representable: 45 times an odd number below the number of cells, in units of 2^-21. -/
theorem representable_cellCentre {e i : Nat} (he : e ≤ 23) (hi : i < 2 ^ e) : Representable (cellCentre e i) := by
  have hpow : (2 : Int) ^ e ≤ 2 ^ 23 := pow_le_pow_right₀ (by decide) he
  have hi' : (i : Int) < 2 ^ e := by exact_mod_cast hi
  refine representable_of_eq ((2 * i + 1) * 45 - 45 * 2 ^ e) 21 ?_ ?_ (by decide)
  · rw [cellCentre]; push_cast; ring
  · rw [abs_lt]; omega

/-- `UQDEC`'s steps of an axis are exact (R116). -/
theorem hasVal_fractionCentre {lo span cells : F64} {e i : Nat} (he : e ≤ 23)
    (hlo : HasVal lo (-(45 * 2 ^ e) / 2 ^ 21)) (hspan : HasVal span (45 * 2 ^ e / 2 ^ 20))
    (hcells : HasVal cells (2 ^ e)) (hi : i < 2 ^ e) :
    HasVal (fractionCentre binary64 lo span cells i) (cellCentre e i) := by
  have hi23 : i < 2 ^ 23 := hi.trans_le (Nat.pow_le_pow_right (by decide) he)
  have hpos : (2 : ℚ) ^ e ≠ 0 := by positivity
  have hfraction : HasVal (fdiv (fadd (n2f i) litHalf) cells) ((2 * i + 1) / 2 ^ (e + 1)) :=
    ((hasVal_indexHalf hi23).fdiv_roundsTo hcells hpos).hasVal_of_eq (by rw [div_div, ← pow_add, add_comm 1])
      (representable_odd i (by omega) (by omega))
  have hdegrees : HasVal (fmul (fdiv (fadd (n2f i) litHalf) cells) span) ((2 * i + 1) * 45 / 2 ^ 21) :=
    (hfraction.fmul_roundsTo hspan).hasVal_of_eq (by rw [pow_succ (2 : ℚ) e]; field_simp)
      (representable_odd_mul i 45 (by omega) (by decide))
  rw [fractionCentre_binary64]
  exact (hlo.fadd_roundsTo hdegrees).hasVal_of_eq rfl (representable_cellCentre he hi)

theorem hasVal_latCentre (i : U22) :
    HasVal (fractionCentre binary64 litNeg90 lit180 litLatCells i.toNat) (cellCentre 22 i.toNat) :=
  hasVal_fractionCentre (by decide) (hasVal_litNeg90.congr (by norm_num)) (hasVal_lit180.congr (by norm_num))
    hasVal_litLatCells i.isLt

theorem hasVal_lonCentre (j : U23) :
    HasVal (fractionCentre binary64 litNeg180 lit360 litLonCells j.toNat) (cellCentre 23 j.toNat) :=
  hasVal_fractionCentre le_rfl (hasVal_litNeg180.congr (by norm_num)) (hasVal_lit360.congr (by norm_num))
    hasVal_litLonCells j.isLt

theorem cellCentre_lat (i : U22) : cellCentre 22 i.toNat = -90 + (2 * i.toNat + 1) * 45 / 2 ^ 21 := by
  rw [cellCentre]; norm_num

theorem cellCentre_lon (j : U23) : cellCentre 23 j.toNat = -180 + (2 * j.toNat + 1) * 45 / 2 ^ 21 := by
  rw [cellCentre]; norm_num

/-- A centre is half a cell inside its axis. -/
theorem abs_cellCentre_le {e i : Nat} (hi : i < 2 ^ e) : |cellCentre e i| ≤ 45 * 2 ^ e / 2 ^ 21 - 45 / 2 ^ 21 := by
  have hi' : (i : ℚ) + 1 ≤ 2 ^ e := by exact_mod_cast hi
  have hi0 : (0 : ℚ) ≤ i := by positivity
  rw [cellCentre, abs_le]
  constructor <;> linarith

/-- No centre is at 0. -/
theorem cellCentre_ne_zero {e i : Nat} (he : 0 < e) : cellCentre e i ≠ 0 := by
  intro h
  have hodd : (2 * i + 1 : ℚ) = 2 ^ e := by rw [cellCentre] at h; linarith
  have hodd' : 2 * i + 1 = 2 ^ e := by exact_mod_cast hodd
  obtain ⟨d, rfl⟩ := Nat.exists_eq_succ_of_ne_zero he.ne'
  rw [Nat.pow_succ] at hodd'
  omega

/-! ### `UQDEC` -/

/-- The latitude clamp does not move what is inside the bounds. -/
theorem HasVal.clampLat {a : F64} {x : ℚ} (h : HasVal a x) (hx : |x| ≤ 90) : fclamp a litNeg90 lit90 = a := by
  obtain ⟨hge, hle⟩ := abs_le.1 hx
  exact fclamp_of_between (by rw [val_litNeg90, h.val_eq]; exact hge) (by rw [val_lit90, h.val_eq]; exact hle)

/-- The longitude clamp does not move what is inside the bounds. -/
theorem HasVal.clampLon {a : F64} {x : ℚ} (h : HasVal a x) (hx : |x| ≤ 180) : fclamp a litNeg180 lit180 = a := by
  obtain ⟨hge, hle⟩ := abs_le.1 hx
  exact fclamp_of_between (by rw [val_litNeg180, h.val_eq]; exact hge) (by rw [val_lit180, h.val_eq]; exact hle)

theorem abs_latCentre_le (i : U22) : |cellCentre 22 i.toNat| ≤ 90 :=
  (abs_cellCentre_le i.isLt).trans (by norm_num)

theorem abs_lonCentre_le (j : U23) : |cellCentre 23 j.toNat| ≤ 180 :=
  (abs_cellCentre_le j.isLt).trans (by norm_num)

/-- The latitude of `UQDEC` is exactly the centre (R116). -/
theorem hasVal_uqLat (i : U22) : HasVal (uqLat binary64 i) (cellCentre 22 i.toNat) := by
  have hcentre := hasVal_latCentre i
  rw [fractionCentre_binary64] at hcentre
  rwa [uqLat_binary64, hcentre.clampLat (abs_latCentre_le i)]

/-- The longitude of `UQDEC` is exactly the centre (R116). -/
theorem hasVal_uqLon (j : U23) : HasVal (uqLon binary64 j) (cellCentre 23 j.toNat) := by
  have hcentre := hasVal_lonCentre j
  rw [fractionCentre_binary64] at hcentre
  rwa [uqLon_binary64, hcentre.clampLon (abs_lonCentre_le j)]

/-- Settles O24: every step of `UQDEC` has a representable result, and the centre lies inside the bounds. -/
theorem uqdecGivesTheExactCentre : Obligations.UqdecGivesTheExactCentre := by
  intro i j
  obtain ⟨hlatFin, hlat⟩ := hasVal_uqLat i
  obtain ⟨hlonFin, hlon⟩ := hasVal_uqLon j
  exact ⟨_, _, respond_uqdec i j, hlatFin, hlonFin, hlat.trans (cellCentre_lat i), hlon.trans (cellCentre_lon j)⟩

/-! ### `UQENC` at a centre -/

/-- The half above an index is floored away. -/
theorem floor_index_half (i : Nat) : ⌊((2 * i + 1) / 2 ^ 1 : ℚ)⌋.toNat = i := by
  have hfloor : ⌊((2 * i + 1) / 2 ^ 1 : ℚ)⌋ = i := by
    rw [Int.floor_eq_iff]
    push_cast
    constructor <;> linarith
  rw [hfloor, Int.toNat_natCast]

/-- `UQENC`'s steps of an axis are exact at a centre, and end half a cell above its index (R117). -/
theorem fractionIndex_cellCentre {off span cells x : F64} {e i : Nat} (he : e ≤ 23)
    (hoff : HasVal off (45 * 2 ^ e / 2 ^ 21)) (hspan : HasVal span (45 * 2 ^ e / 2 ^ 20))
    (hcells : HasVal cells (2 ^ e)) (hi : i < 2 ^ e) (hx : HasVal x (cellCentre e i)) {top : Nat} (htop : i ≤ top) :
    fractionIndex binary64 off span cells top x = i := by
  have hi23 : i < 2 ^ 23 := hi.trans_le (Nat.pow_le_pow_right (by decide) he)
  have hdegrees : HasVal (fadd x off) ((2 * i + 1) * 45 / 2 ^ 21) :=
    (hx.fadd_roundsTo hoff).hasVal_of_eq (by rw [cellCentre]; ring) (representable_odd_mul i 45 (by omega) (by decide))
  have hfraction : HasVal (fdiv (fadd x off) span) ((2 * i + 1) / 2 ^ (e + 1)) :=
    (hdegrees.fdiv_roundsTo hspan (by positivity)).hasVal_of_eq (by rw [pow_succ (2 : ℚ) e]; field_simp)
      (representable_odd i (by omega) (by omega))
  have hscaled : HasVal (fmul (fdiv (fadd x off) span) cells) ((2 * i + 1) / 2 ^ 1) :=
    (hfraction.fmul_roundsTo hcells).hasVal_of_eq (by rw [pow_succ (2 : ℚ) e]; field_simp)
      (representable_odd i (by omega) (by decide))
  rw [fractionIndex_binary64, hscaled.floorNat, floor_index_half, min_eq_left htop]

theorem uqLatIndex_of_centre {lat : F64} {i : U22} (h : HasVal lat (cellCentre 22 i.toNat)) :
    uqLatIndex binary64 lat = i.toNat :=
  fractionIndex_cellCentre (by decide) (hasVal_lit90.congr (by norm_num)) (hasVal_lit180.congr (by norm_num))
    hasVal_litLatCells i.isLt h (Nat.le_of_lt_succ i.isLt)

theorem uqLonIndex_of_centre {lon : F64} {j : U23} (h : HasVal lon (cellCentre 23 j.toNat)) :
    uqLonIndex binary64 lon = j.toNat :=
  fractionIndex_cellCentre le_rfl (hasVal_lit180.congr (by norm_num)) (hasVal_lit360.congr (by norm_num))
    hasVal_litLonCells j.isLt h (Nat.le_of_lt_succ j.isLt)

theorem HasVal.within {a : F64} {x bound : ℚ} (h : HasVal a x) (hx : |x| ≤ bound) : Within bound a :=
  ⟨h.fin, by rw [h.val_eq]; exact neg_le_of_abs_le hx, by rw [h.val_eq]; exact le_of_abs_le hx⟩

/-- An answered cell of two natural numbers that are indices. -/
theorem cellResult_toNat (i : U22) (j : U23) :
    cellResult (BitVec.ofNat 22 i.toNat) (BitVec.ofNat 23 j.toNat) = .ok (i.setWidth 72) (j.setWidth 64) := by
  rw [BitVec.ofNat_toNat, BitVec.ofNat_toNat, BitVec.setWidth_eq, BitVec.setWidth_eq]
  rfl

/-- Settles O26: `UQDEC` gives the centre, and `UQENC`'s steps at a centre are exact and end half a cell above the
index. -/
theorem uniformRoundTripReturnsTheCell : Obligations.UniformRoundTripReturnsTheCell := by
  intro i j
  have hlat := hasVal_uqLat i
  have hlon := hasVal_uqLon j
  refine ⟨_, _, respond_uqdec i j, ?_⟩
  rw [respond_uqenc_of_within (hlat.within (abs_latCentre_le i)) (hlon.within (abs_lonCentre_le j)),
    uqLatIndex_of_centre hlat, uqLonIndex_of_centre hlon, cellResult_toNat]

/-! ### The band centre -/

/-- `BC` is exactly the centre of its latitude cell (R133). -/
theorem hasVal_bandCenter {i : Nat} (hi : i < 2 ^ 22) : HasVal (bandCenter params i) (cellCentre 22 i) := by
  have hmetres : HasVal (fmul (fadd (n2f i) litHalf) 0x40131BFE00000000) ((2 * i + 1) * 626175 / 2 ^ 18) :=
    ((hasVal_indexHalf (show i < 2 ^ 23 by omega)).fmul_roundsTo hasVal_cellSize).hasVal_of_eq (by ring)
      (representable_odd_mul i 626175 (by omega) (by decide))
  have hdegrees : HasVal (fdiv (fmul (fadd (n2f i) litHalf) 0x40131BFE00000000) lit111320)
      ((2 * i + 1) * 45 / 2 ^ 21) :=
    (hmetres.fdiv_roundsTo hasVal_lit111320 (by norm_num)).hasVal_of_eq (by ring)
      (representable_odd_mul i 45 (by omega) (by decide))
  rw [bandCenter_params]
  exact (hasVal_litNeg90.fadd_roundsTo hdegrees).hasVal_of_eq (by rw [cellCentre]; norm_num)
    (representable_cellCentre (by decide) hi)

/-- Settles O28: 626175 / 2^17 over 111320 is 45 / 2^20, so the metres per degree cancel and no step is rounded. -/
theorem bandCentreIsExact : Obligations.BandCentreIsExact := by
  intro i
  obtain ⟨hfin, hval⟩ := hasVal_bandCenter i.isLt
  exact ⟨hfin, hval.trans (cellCentre_lat i)⟩

theorem polar_iff {i : Nat} (hi : i < 2 ^ 22) : polar params i = true ↔ 89 < |cellCentre 22 i| := by
  rw [polar_params, (hasVal_bandCenter hi).fabs.fgt_iff hasVal_lit89]

/-- The centre on the grid of half cells: which centres lie beyond 89 degrees is a question of whole numbers. -/
theorem abs_latCentre_eq (i : Nat) : |cellCentre 22 i| = (|45 * (2 * i + 1 - 2 ^ 22)| : Int) / 2 ^ 21 := by
  have hcentre : cellCentre 22 i = (45 * (2 * i + 1 - 2 ^ 22) : Int) / 2 ^ 21 := by
    rw [cellCentre]; push_cast; ring
  rw [hcentre, abs_div, Int.cast_abs, abs_of_pos (by positivity : (0 : ℚ) < 2 ^ 21)]

theorem lt_abs_latCentre_iff (i : Nat) : 89 < |cellCentre 22 i| ↔ i ≤ 23301 ∨ 4171002 ≤ i := by
  rw [abs_latCentre_eq, lt_div_iff₀ (by positivity)]
  have hcast : (89 * 2 ^ 21 : ℚ) = ((89 * 2 ^ 21 : Int) : ℚ) := by norm_num
  rw [hcast, Int.cast_lt, lt_abs]
  omega

theorem abs_latCentre_lt_iff (i : Nat) : |cellCentre 22 i| < 89 ↔ ¬ (i ≤ 23301 ∨ 4171002 ≤ i) := by
  rw [abs_latCentre_eq, div_lt_iff₀ (by positivity)]
  have hcast : (89 * 2 ^ 21 : ℚ) = ((89 * 2 ^ 21 : Int) : ℚ) := by norm_num
  rw [hcast, Int.cast_lt, abs_lt]
  omega

/-- Settles O29: the band centre is exact, and the odd multiple of 45 that it is on the grid of 2^-21 degrees is never
at 89 * 2^21. -/
theorem polarCellsAreTheTwoCaps : Obligations.PolarCellsAreTheTwoCaps := by
  intro i
  have hpolar := polar_iff i.isLt
  rw [(hasVal_bandCenter i.isLt).val_eq]
  refine ⟨polar_params _, hpolar.trans (lt_abs_latCentre_iff _), hpolar, ?_⟩
  rw [← Bool.not_eq_true, hpolar, abs_latCentre_lt_iff, lt_abs_latCentre_iff]

/-! ### `MQDEC` and `UQDEC` -/

/-- The latitude of `MQDEC` is the band centre, which is the centre that `UQDEC` gives (R141). -/
theorem hasVal_mqLat (i : U22) : HasVal (mqLat params i) (cellCentre 22 i.toNat) := by
  have hcentre := hasVal_bandCenter i.isLt
  rwa [mqLat_params, hcentre.clampLat (abs_latCentre_le i)]

theorem mqLat_eq_uqLat (i : U22) : mqLat params i = uqLat binary64 i :=
  (hasVal_mqLat i).eq (hasVal_uqLat i) (cellCentre_ne_zero (by decide))

/-- In a polar cell `MQDEC` takes `UQDEC`'s steps for the longitude. -/
theorem mqLon_of_polar {i : U22} (h : polar params i.toNat = true) (j : U23) : mqLon params i j = uqLon binary64 j := by
  rw [polar_params] at h
  rw [mqLon_params, if_pos h, uqLon_binary64, fractionCentre_binary64]

/-- Settles O34: both latitudes have the value of the centre, which is not 0 and so has one datum; and the two polar
longitudes are one computation. -/
theorem mqdecSharesTheUniformBits : Obligations.MqdecSharesTheUniformBits := by
  intro i j
  refine ⟨mqLat params i, mqLon params i j, uqLon binary64 j, respond_mqdec i j, ?_, fun hcap => ?_⟩
  · rw [respond_uqdec, mqLat_eq_uqLat]
  · exact mqLon_of_polar ((polar_iff i.isLt).2 ((lt_abs_latCentre_iff _).2 hcap)) j

end Sys2Proof.Machine
end

section
/-! PROOFS. The cosine and the metres branch of the meter-based quantizer (00_scope.md R13;
42_meter_based_quantizer.md R137). Off the polar caps the cosine is bounded away from 0, so the scale of a band is a
moderate number, its cell width is an exact fraction of its circle, and monotone rounding bounds the rest. -/

namespace Sys2Proof.Machine

/-! ### The order of magnitudes -/

/-- Magnitudes of values are in the order of their patterns. -/
theorem magBits_le_iff (a b : F64) : magBits a ≤ magBits b ↔ |val a| ≤ |val b| := by
  rw [abs_val, abs_val, div_le_div_iff_of_pos_right gridUnits_cast_pos, Nat.cast_le]
  constructor
  · intro h
    rcases h.lt_or_eq with hlt | heq
    · exact (gridMag_lt_of_magBits_lt hlt).le
    · exact (gridMag_congr heq).le
  · intro h
    by_contra hlt
    exact absurd h (not_le.2 (gridMag_lt_of_magBits_lt (not_le.1 hlt)))

/-- 2^-7, the lower bound of CP2. -/
theorem hasVal_cosMin : HasVal 0x3F80000000000000 (1 / 2 ^ 7) := ⟨by decide, by decide +kernel⟩

/-- CP2's domain, in values (R13). -/
theorem cosDomain_iff (a : F64) : cosDomain a = true ↔ |val a| ≤ 89 := by
  rw [cosDomain, decide_eq_true_eq, magBits_le_iff, hasVal_lit89.val_eq, abs_of_pos (show (0 : ℚ) < 89 by norm_num)]

/-- CP2's bound, in values (R13). -/
theorem cosBound_iff (c : F64) : cosBound c = true ↔ 1 / 2 ^ 7 ≤ |val c| ∧ |val c| ≤ 1 := by
  have hmin : (0x3F80000000000000 : Nat) = magBits 0x3F80000000000000 := by decide
  rw [cosBound, Bool.and_eq_true, decide_eq_true_eq, decide_eq_true_eq, hmin, magBits_le_iff, magBits_le_iff,
    hasVal_cosMin.val_eq, hasVal_lit1.val_eq, abs_of_pos (show (0 : ℚ) < 1 / 2 ^ 7 by norm_num), abs_one]

/-- A datum no larger than a finite one is finite. -/
theorem isFinite_of_abs_le {a b : F64} (hb : isFinite b = true) (h : |val a| ≤ |val b|) : isFinite a = true := by
  rw [isFinite_iff] at hb ⊢
  exact ((magBits_le_iff a b).2 h).trans_lt hb

/-- The cosine of this block has CP2 (R13). -/
theorem cosdeg_bound {a : F64} (h : |val a| ≤ 89) :
    isFinite (cosdeg a) = true ∧ 1 / 2 ^ 7 ≤ |val (cosdeg a)| ∧ |val (cosdeg a)| ≤ 1 := by
  have hbound := (cosBound_iff _).1 (boundedCos_bound Config.cosdegRaw ((cosDomain_iff a).2 h))
  refine ⟨isFinite_of_abs_le hasVal_lit1.fin ?_, hbound⟩
  rw [hasVal_lit1.val_eq, abs_one]
  exact hbound.2

/-- Settles O27: the bound is imposed on whatever function the block is built with. -/
theorem cosineIsBoundedOffThePoles : Obligations.CosineIsBoundedOffThePoles := fun _ _ h => cosdeg_bound h

/-! ### Monotone rounding and exact halving -/

/-- Rounding keeps the order of two different numbers. -/
theorem RoundsTo.mono {v v' : ℚ} {r r' : F64} (h : RoundsTo v r) (h' : RoundsTo v' r') (hlt : v < v')
    (hfin : isFinite r = true) (hfin' : isFinite r' = true) (hv : |v| ≤ 2 ^ 64) (hv' : |v'| ≤ 2 ^ 64) :
    val r ≤ val r' := by
  by_contra hgt
  have hnear := (((h.1 (lt_overflow_of_le hv)).2 r' hfin').1)
  have hnear' := (((h'.1 (lt_overflow_of_le hv')).2 r hfin).1)
  have hmid : (val r + val r') / 2 ≤ v := by
    by_contra hbelow
    rw [abs_of_pos (by linarith)] at hnear
    rcases abs_cases (val r' - v) with ⟨he, _⟩ | ⟨he, _⟩ <;> linarith
  have hmid' : v' ≤ (val r + val r') / 2 := by
    by_contra habove
    rw [abs_of_neg (by linarith : val r' - v' < 0)] at hnear'
    rcases abs_cases (val r - v') with ⟨he, _⟩ | ⟨he, _⟩ <;> linarith
  linarith

/-- Division by a power of two is exact where the quotient does not become subnormal. -/
theorem representable_div_two_pow {a : F64} (hfin : isFinite a = true) (hge : 1 ≤ |val a|) {j : Nat} (hj : j ≤ 1000) :
    Representable (val a / 2 ^ j) := by
  obtain ⟨k, c, hmag, hc, hk, hgrid⟩ := exists_gridMag a
  obtain ⟨u, hu, hunits⟩ : ∃ u, u = 1074 ∧ gridUnits = 2 ^ u := ⟨_, rfl, gridUnits_eq⟩
  have hjk : j ≤ k := by
    rw [abs_val, le_div_iff₀ gridUnits_cast_pos, one_mul, Nat.cast_le, hgrid, hunits] at hge
    have hlt : c * 2 ^ k < 2 ^ (k + 53) := by
      rw [pow_add, mul_comm]
      exact Nat.mul_lt_mul_of_pos_left hc (Nat.two_pow_pos k)
    have hk' := (Nat.pow_lt_pow_iff_right (by decide)).1 (hge.trans_lt hlt)
    omega
  have hk0 : k - j = 0 ∨ hiddenBit ≤ c := hk.imp (fun h => by omega) id
  have hr : (k - j) * hiddenBit + c ≤ infBits := by
    have hmono : (k - j) * hiddenBit ≤ k * hiddenBit := Nat.mul_le_mul_right _ (Nat.sub_le k j)
    have hlt := (isFinite_iff a).1 hfin
    omega
  have hq : 0 < 2 ^ j * gridUnits := Nat.mul_pos (Nat.two_pow_pos j) gridUnits_pos
  have hsplit : gridMag a * gridUnits = c * 2 ^ (k - j) * (2 ^ j * gridUnits) := by
    rw [hgrid, ← Nat.sub_add_cancel hjk, pow_add, Nat.add_sub_cancel]
    ring
  have hquot : (gridMag a / (2 ^ j * gridUnits : Nat) : ℚ) = gridMag a / gridUnits / 2 ^ j := by
    rw [Nat.cast_mul, Nat.cast_pow, Nat.cast_ofNat, div_div, mul_comm]
  refine ⟨roundTo (signBit a) (gridMag a) (2 ^ j * gridUnits), ?_, ?_⟩
  · rw [isFinite_roundTo_iff_lt _ _ hq, hquot, ← abs_val]
    exact (div_le_self (abs_nonneg _) (one_le_pow₀ one_le_two)).trans_lt (abs_val_lt hfin)
  · rw [val_roundTo_exact hq hsplit hc hk0 hr, hquot, ← mul_div_assoc, val_eq_sgn_mul]
    rfl

/-! ### The scale of a band -/

section
variable {i : Nat} (hi : i < 2 ^ 22) (hpolar : polar params i = false)
include hi hpolar

theorem abs_bandCenter_le : |val (bandCenter params i)| ≤ 89 := by
  rw [← Bool.not_eq_true, polar_iff hi, not_lt] at hpolar
  rwa [(hasVal_bandCenter hi).val_eq]

/-- The metres per degree are between 111320 / 2^7 and 111320 (R137). -/
theorem finiteIn_metersPerDegLon : FiniteIn (869 + 11 / 16) 111320 (metersPerDegLon params i) := by
  obtain ⟨hfin, hge, hle⟩ := cosdeg_bound (abs_bandCenter_le hi hpolar)
  have hcos : HasVal (fabs (cosdeg (bandCenter params i))) |val (cosdeg (bandCenter params i))| :=
    HasVal.fabs ⟨hfin, rfl⟩
  rw [metersPerDegLon_params]
  refine (hasVal_lit111320.fmul_roundsTo hcos).between ?_ hasVal_lit111320.representable (by linarith) (by linarith)
  exact representable_of_eq 13915 4 (by norm_num) (by norm_num) (by decide)

/-- The length of the parallel, 360 degrees of it. -/
theorem finiteIn_circle : FiniteIn 313087 40075200 (fmul lit360 (metersPerDegLon params i)) := by
  obtain ⟨hfin, hge, hle⟩ := finiteIn_metersPerDegLon hi hpolar
  refine (hasVal_lit360.fmul_roundsTo ⟨hfin, rfl⟩).between ?_ ?_ (by linarith) (by linarith)
  · exact representable_ofNat 313087 (by decide)
  · exact representable_ofNat 40075200 (by decide)

/-- The width of a cell is exactly the 2^23rd part of the parallel (R137). -/
theorem hasVal_lonCellM :
    HasVal (lonCellM params i) (val (fmul lit360 (metersPerDegLon params i)) / 2 ^ 23) := by
  obtain ⟨hfin, hge, hle⟩ := finiteIn_circle hi hpolar
  rw [lonCellM_params]
  refine (HasVal.fdiv_roundsTo ⟨hfin, rfl⟩ hasVal_litLonCells (by norm_num)).hasVal
    (representable_div_two_pow hfin ?_ (by decide))
  rw [le_abs]
  exact .inl (by linarith)

/-- The metres from -180 degrees are at most the length of the parallel, as rounded (R137). -/
theorem finiteIn_lonMeters {u : F64} (hu : FiniteIn 0 360 u) :
    FiniteIn 0 (val (fmul lit360 (metersPerDegLon params i))) (fmul u (metersPerDegLon params i)) := by
  obtain ⟨hmFin, hmGe, hmLe⟩ := finiteIn_metersPerDegLon hi hpolar
  obtain ⟨hcFin, hcGe, hcLe⟩ := finiteIn_circle hi hpolar
  obtain ⟨huFin, huGe, huLe⟩ := hu
  have hround := HasVal.fmul_roundsTo ⟨huFin, rfl⟩ ⟨hmFin, rfl⟩
  have hcircle := hasVal_lit360.fmul_roundsTo ⟨hmFin, rfl⟩
  have hprod : val u * val (metersPerDegLon params i) ≤ 40075200 :=
    (mul_le_mul huLe hmLe (by linarith) (by norm_num)).trans (by norm_num)
  have hprod0 : 0 ≤ val u * val (metersPerDegLon params i) := mul_nonneg huGe (by linarith)
  obtain ⟨hfin, hge, -⟩ := hround.between representable_zero
    (representable_ofNat 40075200 (by decide)) hprod0 hprod
  refine ⟨hfin, hge, ?_⟩
  rcases huLe.lt_or_eq with hlt | heq
  · refine hround.mono hcircle ?_ hfin hcFin ?_ ?_
    · exact mul_lt_mul_of_pos_right hlt (by linarith)
    · rw [abs_of_nonneg hprod0]
      linarith
    · rw [abs_of_nonneg (by linarith)]
      linarith
  · obtain rfl : u = lit360 := HasVal.eq ⟨huFin, heq⟩ hasVal_lit360 (by norm_num)
    exact le_rfl

/-- The longitude in cells is between 0 and 2^23 (R137). -/
theorem finiteIn_lonCells {u : F64} (hu : FiniteIn 0 360 u) :
    FiniteIn 0 8388608 (fdiv (fmul u (metersPerDegLon params i)) (lonCellM params i)) := by
  obtain ⟨hcFin, hcGe, hcLe⟩ := finiteIn_circle hi hpolar
  obtain ⟨hfin, hge, hle⟩ := finiteIn_lonMeters hi hpolar hu
  have hcell : 0 < val (fmul lit360 (metersPerDegLon params i)) / 2 ^ 23 := by
    have : 0 < val (fmul lit360 (metersPerDegLon params i)) := by linarith
    positivity
  refine (HasVal.fdiv_roundsTo ⟨hfin, rfl⟩ (hasVal_lonCellM hi hpolar) hcell.ne').between ?_ ?_ ?_ ?_
  · exact representable_zero
  · exact representable_ofNat 8388608 (by decide)
  · exact div_nonneg hge hcell.le
  · rw [div_le_iff₀ hcell]
    linarith

end

/-! ### The steps of an accepted pair -/

/-- Where the scaled axis of a pair in range lies (R112). -/
theorem finiteIn_offset {x off : F64} {o : ℚ} (hoff : HasVal off o) (hx : Within o x) (hrep : Representable (2 * o)) :
    FiniteIn 0 (2 * o) (fadd x off) := by
  obtain ⟨hfin, hge, hle⟩ := hx
  refine (HasVal.fadd_roundsTo ⟨hfin, rfl⟩ hoff).between ?_ hrep (by linarith) (by linarith)
  exact representable_zero

/-- A fraction of a span is between 0 and 1 (R112). -/
theorem finiteIn_fraction {t span : F64} {w : ℚ} (hspan : HasVal span w) (hw : 0 < w) (ht : FiniteIn 0 w t) :
    FiniteIn 0 1 (fdiv t span) := by
  obtain ⟨hfin, hge, hle⟩ := ht
  refine (HasVal.fdiv_roundsTo ⟨hfin, rfl⟩ hspan hw.ne').between ?_ hasVal_lit1.representable (div_nonneg hge hw.le)
    ((div_le_one hw).2 hle)
  exact representable_zero

/-- A fraction scaled is between 0 and its scale (R112). -/
theorem finiteIn_scaled {t scale : F64} {w w' : ℚ} (hscale : HasVal scale w') (hw' : 0 < w') (ht : FiniteIn 0 w t)
    (hrep : Representable (w * w')) : FiniteIn 0 (w * w') (fmul t scale) := by
  obtain ⟨hfin, hge, hle⟩ := ht
  refine (HasVal.fmul_roundsTo ⟨hfin, rfl⟩ hscale).between ?_ hrep (mul_nonneg hge hw'.le)
    (mul_le_mul_of_nonneg_right hle hw'.le)
  exact representable_zero

/-- A closed interval written with another upper end of the same value. -/
theorem FiniteIn.congr {a : F64} {w w' : ℚ} (h : FiniteIn 0 w a) (hw : w = w') : FiniteIn 0 w' a := hw ▸ h

/-- Settles O20: each step is the rounding of a result between two representable numbers, and the metres from -180 are
at most the circle because `u1 * m` is rounded like `360 * m` and is not above it. -/
theorem quantizerIntermediatesStayInBounds : Obligations.QuantizerIntermediatesStayInBounds := by
  intro lat lon hlat hlon t1 t2 u1 u2 latMeters
  have ht1 : FiniteIn 0 180 t1 :=
    (finiteIn_offset hasVal_lit90 hlat (hasVal_lit180.congr (by norm_num)).representable).congr (by norm_num)
  have ht2 : FiniteIn 0 1 t2 := finiteIn_fraction hasVal_lit180 (by norm_num) ht1
  have hu1 : FiniteIn 0 360 u1 :=
    (finiteIn_offset hasVal_lit180 hlon (hasVal_lit360.congr (by norm_num)).representable).congr (by norm_num)
  have hu2 : FiniteIn 0 1 u2 := finiteIn_fraction hasVal_lit360 (by norm_num) hu1
  have hmetres : FiniteIn 0 20037600 latMeters :=
    (finiteIn_scaled hasVal_lit111320 (by norm_num) ht1
      (by norm_num; exact representable_ofNat 20037600 (by decide))).congr (by norm_num)
  refine ⟨ht1, ht2, ?_, hu1, hu2, ?_, hmetres, ?_, fun i hpolar => ?_⟩
  · exact (finiteIn_scaled hasVal_litLatCells (by norm_num) ht2
      (hasVal_litLatCells.congr (by norm_num)).representable).congr (by norm_num)
  · exact (finiteIn_scaled hasVal_litLonCells (by norm_num) hu2
      (hasVal_litLonCells.congr (by norm_num)).representable).congr (by norm_num)
  · obtain ⟨hfin, hge, hle⟩ := hmetres
    refine (HasVal.fdiv_roundsTo ⟨hfin, rfl⟩ hasVal_cellSize (by norm_num)).between ?_ ?_ ?_ ?_
    · exact representable_zero
    · exact representable_ofNat 4194304 (by decide)
    · exact div_nonneg hge (by norm_num)
    · rw [div_le_iff₀ (by norm_num)]
      linarith
  · intro m circle lonCell lonMeters
    have hm : m = metersPerDegLon params i.toNat := (metersPerDegLon_params _).symm
    have hcell : lonCell = lonCellM params i.toNat := by rw [lonCellM_params, ← hm]
    have hcircle := finiteIn_circle i.isLt hpolar
    have hwidth := hasVal_lonCellM i.isLt hpolar
    have hlonMeters := finiteIn_lonMeters i.isLt hpolar hu1
    have hcells := finiteIn_lonCells i.isLt hpolar hu1
    rw [← hm] at hcircle hwidth hlonMeters hcells
    rw [← hcell] at hwidth hcells
    have hval : val lonCell = val circle / 8388608 := hwidth.val_eq.trans (by norm_num [circle])
    refine ⟨hm ▸ finiteIn_metersPerDegLon i.isLt hpolar, hcircle.1, hwidth.fin, hval, ?_, hlonMeters, hcells⟩
    have hpos : 0 < val circle := lt_of_lt_of_le (by norm_num) hcircle.2.1
    rw [hval]
    positivity

/-! ### The ends of the longitude range -/

/-- In the metres branch lon = 180 gives the whole circle, which is 2^23 cells exactly, and lon = -180 nothing. -/
theorem mqLonIndexMetres_ends {i : Nat} (hi : i < 2 ^ 22) (hpolar : polar params i = false) :
    mqLonIndexMetres params i lit180 = 8388607 ∧ mqLonIndexMetres params i litNeg180 = 0 := by
  obtain ⟨hcFin, hcGe, hcLe⟩ := finiteIn_circle hi hpolar
  have hcell := hasVal_lonCellM hi hpolar
  have hpos : val (fmul lit360 (metersPerDegLon params i)) / 2 ^ 23 ≠ 0 := by
    have : 0 < val (fmul lit360 (metersPerDegLon params i)) := by linarith
    positivity
  constructor
  · have hsum : fadd lit180 lit180 = lit360 := by decide +kernel
    have hcells : HasVal (fdiv (fmul lit360 (metersPerDegLon params i)) (lonCellM params i)) 8388608 := by
      refine (HasVal.fdiv_roundsTo ⟨hcFin, rfl⟩ hcell hpos).hasVal_of_eq ?_ (representable_ofNat 8388608 (by decide))
      rw [div_div_cancel₀ (fun h => hpos (by rw [h, zero_div]))]
      norm_num
    rw [mqLonIndexMetres_params, hsum, hcells.floorNat, Int.floor_ofNat]
    rfl
  · have hsum : HasVal (fadd litNeg180 lit180) 0 := ⟨by decide +kernel, by decide +kernel⟩
    have hm : HasVal (metersPerDegLon params i) _ := ⟨(finiteIn_metersPerDegLon hi hpolar).1, rfl⟩
    have hmetres := (hsum.fmul_roundsTo hm).hasVal_of_eq (zero_mul _) representable_zero
    have hcells := (hmetres.fdiv_roundsTo hcell hpos).hasVal_of_eq (zero_div _) representable_zero
    rw [mqLonIndexMetres_params, hcells.floorNat, Int.floor_zero]
    rfl

/-- In the polar branch the two ends are fixed data. -/
theorem uqLonIndex_ends : uqLonIndex binary64 lit180 = 8388607 ∧ uqLonIndex binary64 litNeg180 = 0 := by
  decide +kernel

/-- At the two ends of the longitude range the index does not depend on the band (R137). -/
theorem mqLonIndex_ends {i : Nat} (hi : i < 2 ^ 22) :
    mqLonIndex params i lit180 = 8388607 ∧ mqLonIndex params i litNeg180 = 0 := by
  cases hpolar : polar params i with
  | true =>
    have hbranch (lon : F64) : mqLonIndex params i lon = uqLonIndex binary64 lon := if_pos hpolar
    rw [hbranch, hbranch]
    exact uqLonIndex_ends
  | false =>
    have hbranch (lon : F64) : mqLonIndex params i lon = mqLonIndexMetres params i lon :=
      if_neg (Bool.eq_false_iff.1 hpolar)
    rw [hbranch, hbranch]
    exact mqLonIndexMetres_ends hi hpolar

theorem mqLatIndex_lt (lat : F64) : mqLatIndex params lat < 2 ^ 22 := Nat.lt_succ_of_le (mqLatIndex_le params lat)

/-- Settles O31: in the polar branch the two ends are two fixed fractions, and in the metres branch the circle and
nothing. -/
theorem mqencLongitudeEndsAreIndependentOfTheCosine : Obligations.MqencLongitudeEndsAreIndependentOfTheCosine := by
  intro lat hlat
  obtain ⟨heast, hwest⟩ := mqLonIndex_ends (mqLatIndex_lt lat)
  have h180 : Within 180 lit180 := hasVal_lit180.within (by norm_num)
  have hneg180 : Within 180 litNeg180 := hasVal_litNeg180.within (by norm_num)
  refine ⟨BitVec.ofNat 22 (mqLatIndex params lat), ?_, ?_⟩
  · rw [respond_mqenc_of_within hlat h180, heast]
    rfl
  · rw [respond_mqenc_of_within hlat hneg180, hwest]
    rfl

/-- Settles O22: the corners are polar, so no cosine is asked, and each response is a computation on fixed data. -/
theorem cornersSucceedAndBeyondFails : Obligations.CornersSucceedAndBeyondFails := by
  rintro e (rfl | rfl)
  · refine ⟨?_, ?_, ?_, ?_, ?_, ?_, ?_, ?_⟩ <;> decide +kernel
  · refine ⟨?_, ?_, ?_, ?_, ?_, ?_, ?_, ?_⟩ <;> decide +kernel

end Sys2Proof.Machine
end

section
/-! PROOFS. The exact rational `NUMERICS` (00_scope.md R12): the statements about real numbers (41_uniform_quantizer.md
R113, R116; 42_meter_based_quantizer.md R138). -/

namespace Sys2Proof.Machine

/-! ### `UQDEC` -/

/-- The only datum of a representable number that is not 0. -/
theorem roundQ_eq {a : F64} {x : ℚ} (h : HasVal a x) (hx : x ≠ 0) : roundQ x = a :=
  ((roundsTo_roundQ x).hasVal h.representable).eq h hx

/-- The exact clamp does not move what is between its ends. -/
theorem clampTo_exact {lo hi : F64} {x : ℚ} (hge : val lo ≤ x) (hle : x ≤ val hi) :
    clampTo exactNumerics lo hi x = x := by
  simp [clampTo, exactNumerics, not_lt.2 hge, not_lt.2 hle]

/-- `UQDEC`'s steps of an axis in exact arithmetic. -/
theorem fractionCentre_exact {lo span cells : F64} {e : Nat} (hlo : val lo = -(45 * 2 ^ e) / 2 ^ 21)
    (hspan : val span = 45 * 2 ^ e / 2 ^ 20) (hcells : val cells = 2 ^ e) (i : Nat) :
    fractionCentre exactNumerics lo span cells i = cellCentre e i := by
  simp only [fractionCentre, exactNumerics, hlo, hspan, hcells, hasVal_litHalf.val_eq, cellCentre]
  have hpos : (2 : ℚ) ^ e ≠ 0 := by positivity
  field_simp

theorem uqLat_exact (i : U22) : uqLat exactNumerics i = roundQ (cellCentre 22 i.toNat) := by
  obtain ⟨hge, hle⟩ := abs_le.1 (abs_latCentre_le i)
  rw [uqLat, fractionCentre_exact (e := 22) (by rw [val_litNeg90]; norm_num) (by rw [val_lit180]; norm_num)
    hasVal_litLatCells.val_eq, clampTo_exact (by rwa [val_litNeg90]) (by rwa [val_lit90])]
  rfl

theorem uqLon_exact (j : U23) : uqLon exactNumerics j = roundQ (cellCentre 23 j.toNat) := by
  obtain ⟨hge, hle⟩ := abs_le.1 (abs_lonCentre_le j)
  rw [uqLon, fractionCentre_exact (e := 23) (by rw [val_litNeg180]; norm_num) (by rw [hasVal_lit360.val_eq]; norm_num)
    hasVal_litLonCells.val_eq, clampTo_exact (by rwa [val_litNeg180]) (by rwa [val_lit180])]
  rfl

/-- Settles O25: in exact arithmetic the two clamps leave the centre, and rounding it gives the one datum that has it
as its value, which is what binary64 computes. -/
theorem uqdecIsTheSameInExactArithmetic : Obligations.UqdecIsTheSameInExactArithmetic := by
  intro i j
  rw [uqdecResponse, uqdecResponse, exactParams, uqLat_exact, uqLon_exact,
    roundQ_eq (hasVal_uqLat i) (cellCentre_ne_zero (by decide)),
    roundQ_eq (hasVal_uqLon j) (cellCentre_ne_zero (by decide)), params]

/-! ### `UQENC` -/

/-- An axis of `UQENC` in exact arithmetic counts cells of 45 / 2^20 degrees from its lower end. -/
theorem fractionIndex_exact {off span cells : F64} {e : Nat} (hoff : val off = 45 * 2 ^ e / 2 ^ 21)
    (hspan : val span = 45 * 2 ^ e / 2 ^ 20) (hcells : val cells = 2 ^ e) (top : Nat) (x : F64) :
    fractionIndex exactNumerics off span cells top x =
      min ⌊(val x + 45 * 2 ^ e / 2 ^ 21) / (45 / 2 ^ 20)⌋.toNat top := by
  have hquot : (val x + 45 * 2 ^ e / 2 ^ 21) / (45 * 2 ^ e / 2 ^ 20) * 2 ^ e
      = (val x + 45 * 2 ^ e / 2 ^ 21) / (45 / 2 ^ 20) := by
    have hpos : (2 : ℚ) ^ e ≠ 0 := by positivity
    field_simp
  simp only [fractionIndex, exactNumerics, hoff, hspan, hcells, hquot]
  rfl

/-- The number of whole cells below a point of an axis, clamped to the last cell, is the cell that contains it, lower
end included and the top cell closed. -/
theorem cell_contains {x w b : ℚ} {n : Nat} (hw : 0 < w) (hn : 0 < n) (hb : 2 * b = n * w) (hge : -b ≤ x)
    (hle : x ≤ b) :
    -b + (min ⌊(x + b) / w⌋.toNat (n - 1) : Nat) * w ≤ x
    ∧ (x < -b + ((min ⌊(x + b) / w⌋.toNat (n - 1) : Nat) + 1) * w
      ∨ (min ⌊(x + b) / w⌋.toNat (n - 1) = n - 1 ∧ x = b)) := by
  have hcells0 : 0 ≤ (x + b) / w := div_nonneg (by linarith) hw.le
  have hx : x = -b + (x + b) / w * w := by rw [div_mul_cancel₀ _ hw.ne']; ring
  have hcellsN : (x + b) / w ≤ n := by rw [div_le_iff₀ hw]; linarith
  obtain ⟨k, hk⟩ : ∃ k : Nat, ⌊(x + b) / w⌋ = k := Int.eq_ofNat_of_zero_le (Int.floor_nonneg.2 hcells0)
  obtain ⟨hfloor, hceil⟩ := Int.floor_eq_iff.1 hk
  rw [hk, Int.toNat_natCast]
  generalize (x + b) / w = y at *
  subst hx
  rw [Int.cast_natCast] at hfloor hceil
  have hkn : k ≤ n := by exact_mod_cast hfloor.trans hcellsN
  rcases hkn.lt_or_eq with hlt | rfl
  · rw [min_eq_left (by omega)]
    refine ⟨by gcongr, .inl (by gcongr)⟩
  · have htop : y = k := le_antisymm hcellsN hfloor
    have hcast : ((k - 1 : Nat) : ℚ) = k - 1 := by rw [Nat.cast_sub hn, Nat.cast_one]
    rw [min_eq_right (Nat.sub_le k 1), htop, hcast]
    refine ⟨?_, .inr ⟨rfl, ?_⟩⟩
    · gcongr
      linarith
    · linarith

theorem uqLatIndex_exact (lat : F64) :
    uqLatIndex exactNumerics lat = min ⌊(val lat + 90) / (45 / 2 ^ 20)⌋.toNat 4194303 := by
  have hbound : (45 * 2 ^ 22 / 2 ^ 21 : ℚ) = 90 := by norm_num
  rw [uqLatIndex, fractionIndex_exact (e := 22) (by rw [val_lit90, hbound]) (by rw [val_lit180]; norm_num)
    hasVal_litLatCells.val_eq, hbound, Config.latMax]

theorem uqLonIndex_exact (lon : F64) :
    uqLonIndex exactNumerics lon = min ⌊(val lon + 180) / (45 / 2 ^ 20)⌋.toNat 8388607 := by
  have hbound : (45 * 2 ^ 23 / 2 ^ 21 : ℚ) = 180 := by norm_num
  rw [uqLonIndex, fractionIndex_exact (e := 23) (by rw [val_lit180, hbound]) (by rw [hasVal_lit360.val_eq]; norm_num)
    hasVal_litLonCells.val_eq, hbound, Config.lonMax]

/-- Settles O21: each index is the number of whole cells between the lower bound and the point, clamped to the last
cell. -/
theorem uqencCellContainsThePointInRealNumbers : Obligations.UqencCellContainsThePointInRealNumbers := by
  intro lat lon hlat hlon
  have hlatCell := cell_contains (x := val lat) (w := 45 / 2 ^ 20) (b := 90) (n := 2 ^ 22) (by norm_num) (by norm_num)
    (by norm_num) hlat.2.1 hlat.2.2
  have hlonCell := cell_contains (x := val lon) (w := 45 / 2 ^ 20) (b := 180) (n := 2 ^ 23) (by norm_num) (by norm_num)
    (by norm_num) hlon.2.1 hlon.2.2
  refine ⟨BitVec.ofNat 22 (uqLatIndex exactNumerics lat), BitVec.ofNat 23 (uqLonIndex exactNumerics lon),
    rangeChecked_of_within hlat hlon _, ?_, ?_⟩
  · have hle : uqLatIndex exactNumerics lat ≤ 4194303 := fractionIndex_le ..
    rw [BitVec.toNat_ofNat, Nat.mod_eq_of_lt (by omega), uqLatIndex_exact]
    exact hlatCell
  · have hle : uqLonIndex exactNumerics lon ≤ 8388607 := fractionIndex_le ..
    rw [BitVec.toNat_ofNat, Nat.mod_eq_of_lt (by omega), uqLonIndex_exact]
    exact hlonCell

/-! ### `MQENC` -/

/-- `CELL_SIZE_M` in exact arithmetic (R131). -/
theorem cellSizeM_exact : cellSizeM exactParams = 20037600 / 2 ^ 22 := by
  simp [cellSizeM, exactParams, exactNumerics, Config.totalLatRangeM, hasVal_litLatCells.val_eq]

/-- The metres per degree of latitude cancel (R138). -/
theorem mqLatIndex_exact (lat : F64) : mqLatIndex exactParams lat = uqLatIndex exactNumerics lat := by
  have hquot : (val lat + 90) * 111320 / (20037600 / 2 ^ 22) = (val lat + 90) / 180 * 2 ^ 22 := by ring
  rw [mqLatIndex, cellSizeM_exact]
  simp only [uqLatIndex, fractionIndex, exactParams, exactNumerics, val_lit90, val_lit180,
    hasVal_lit111320.val_eq, hasVal_litLatCells.val_eq, hquot]

theorem bandCenter_exact (i : Nat) : bandCenter exactParams i = cellCentre 22 i := by
  rw [bandCenter, cellSizeM_exact]
  simp only [exactParams, exactNumerics, val_litNeg90, hasVal_litHalf.val_eq, hasVal_lit111320.val_eq, cellCentre]
  ring

theorem polar_exact_iff (i : Nat) : polar exactParams i = true ↔ 89 < |cellCentre 22 i| := by
  rw [polar, bandCenter_exact]
  simp [exactParams, exactNumerics, hasVal_lit89.val_eq]

/-- Off the caps the metres per degree are not 0, whatever the cosine. -/
theorem metersPerDegLon_exact_ne_zero {i : Nat} (hi : i < 2 ^ 22) (hpolar : ¬ polar exactParams i = true) :
    metersPerDegLon exactParams i ≠ 0 := by
  rw [polar_exact_iff, not_lt] at hpolar
  have hcentre := (roundsTo_roundQ _).hasVal (hasVal_bandCenter hi).representable
  have hcos := (cosdeg_bound (a := roundQ (cellCentre 22 i)) (by rwa [hcentre.val_eq])).2.1
  have hne : |val (cosdeg (roundQ (cellCentre 22 i)))| ≠ 0 := (lt_of_lt_of_le (by norm_num) hcos).ne'
  rw [metersPerDegLon, bandCenter_exact]
  simp only [exactParams, exactNumerics, hasVal_lit111320.val_eq]
  exact mul_ne_zero (by norm_num) hne

/-- The metres per degree of longitude cancel (R138). -/
theorem mqLonIndexMetres_exact {i : Nat} (hm : metersPerDegLon exactParams i ≠ 0) (lon : F64) :
    mqLonIndexMetres exactParams i lon = uqLonIndex exactNumerics lon := by
  rw [mqLonIndexMetres, lonCellM]
  generalize metersPerDegLon exactParams i = m at hm
  have hquot : (val lon + 180) * m / (360 * m / 2 ^ 23) = (val lon + 180) / 360 * 2 ^ 23 := by
    field_simp
  simp only [uqLonIndex, fractionIndex, exactParams, exactNumerics, val_lit180, hasVal_lit360.val_eq,
    hasVal_litLonCells.val_eq, hquot]

theorem mqLonIndex_exact {i : Nat} (hi : i < 2 ^ 22) (lon : F64) :
    mqLonIndex exactParams i lon = uqLonIndex exactNumerics lon := by
  unfold mqLonIndex
  split_ifs with hpolar
  · rfl
  · exact mqLonIndexMetres_exact (metersPerDegLon_exact_ne_zero hi hpolar) lon

/-- Settles O32: both stand behind the same range check, and in exact arithmetic the metres cancel on either axis. -/
theorem mqencIsUqencInRealNumbers : Obligations.MqencIsUqencInRealNumbers := by
  intro lat lon
  have hi : mqLatIndex exactParams lat < 2 ^ 22 := Nat.lt_succ_of_le (mqLatIndex_le _ _)
  rw [mqencResponse, mqLonIndex_exact hi, mqLatIndex_exact, uqencResponse]
  rfl

end Sys2Proof.Machine
end

section
/-! PROOFS. The longitude of the metres branch (42_meter_based_quantizer.md R141, R142). Every step off the caps has a
result far from underflow and overflow, so it multiplies the exact one by `1 + e` with `e` at most 2^-53 in magnitude.
The scale of the band cancels but for such factors, and a few of them make less than 2^-51. -/

namespace Sys2Proof.Machine

/-! ### Relative errors -/

/-- `y` is `x` up to a relative error of at most `u`. -/
def NearBy (u x y : ℚ) : Prop := ∃ e : ℚ, |e| ≤ u ∧ y = x * (1 + e)

/-- One rounding off the subnormal numbers is a relative error of at most 2^-53. -/
theorem RoundsTo.nearBy {v : ℚ} {r : F64} (h : RoundsTo v r) (hge : 1 / 2 ^ 64 ≤ v) (hle : v ≤ 2 ^ 64) :
    isFinite r = true ∧ NearBy (1 / 2 ^ 53) v (val r) := by
  have hpos : 0 < v := lt_of_lt_of_le (by norm_num) hge
  obtain ⟨hfin, herror⟩ := h.error (abs_of_pos hpos).le (normal_of_le hge) hle
  refine ⟨hfin, val r / v - 1, ?_, ?_⟩
  · rw [div_sub_one hpos.ne', abs_div, abs_of_pos hpos, div_le_iff₀ hpos]
    linarith
  · field_simp
    ring

/-- Relative errors add up, and a little more. -/
theorem NearBy.trans {u u' x y z : ℚ} (h : NearBy u x y) (h' : NearBy u' y z) : NearBy (u + u' + u * u') x z := by
  obtain ⟨e, he, rfl⟩ := h
  obtain ⟨e', he', rfl⟩ := h'
  refine ⟨e + e' + e * e', ?_, by ring⟩
  calc |e + e' + e * e'| ≤ |e| + |e'| + |e * e'| := abs_add_three _ _ _
    _ ≤ u + u' + u * u' := by
      rw [abs_mul]
      exact add_le_add (add_le_add he he') (mul_le_mul he he' (abs_nonneg _) ((abs_nonneg _).trans he))

/-- A relative error is kept by a common factor. -/
theorem NearBy.mul_right {u x y : ℚ} (h : NearBy u x y) (c : ℚ) : NearBy u (x * c) (y * c) := by
  obtain ⟨e, he, rfl⟩ := h
  exact ⟨e, he, by ring⟩

theorem NearBy.mono {u u' x y : ℚ} (h : NearBy u x y) (hu : u ≤ u') : NearBy u' x y := by
  obtain ⟨e, he, rfl⟩ := h
  exact ⟨e, he.trans hu, rfl⟩

/-- A divisor moved by a small relative error moves the quotient by at most twice that. -/
theorem NearBy.div_left {u s s' : ℚ} (h : NearBy u s s') (hu : u ≤ 1 / 2) (c : ℚ) :
    NearBy (2 * u) (c / s) (c / s') := by
  obtain ⟨e, he, rfl⟩ := h
  obtain ⟨hlow, -⟩ := abs_le.1 he
  have hpos : 1 / 2 ≤ 1 + e := by linarith
  refine ⟨-e / (1 + e), ?_, ?_⟩
  · rw [abs_div, abs_neg, abs_of_pos (by linarith : 0 < 1 + e), div_le_iff₀ (by linarith)]
    nlinarith [abs_nonneg e]
  · have hne : 1 + e ≠ 0 := by linarith
    rw [div_mul_eq_div_div, show 1 + -e / (1 + e) = 1 / (1 + e) by field_simp; ring, mul_one_div]

/-- A relative error of a bounded number as an absolute one. -/
theorem NearBy.abs_sub_le {u x y B : ℚ} (h : NearBy u x y) (hx : |x| ≤ B) : |y - x| ≤ B * u := by
  obtain ⟨e, he, rfl⟩ := h
  rw [show x * (1 + e) - x = x * e by ring, abs_mul]
  exact mul_le_mul hx he (abs_nonneg _) ((abs_nonneg _).trans hx)

/-! ### `MQDEC` off the caps -/

/-- Degrees from -180 to the centre of cell `j`. -/
theorem lonCentre_eq (j : Nat) : cellCentre 23 j = -180 + (2 * j + 1) / 2 * (360 / 2 ^ 23) := by
  rw [cellCentre]; ring

section
variable {i : Nat} (hi : i < 2 ^ 22) (hpolar : polar params i = false)
include hi hpolar

/-- The width of a cell is near the 2^23rd part of 360 degrees in the scale of the band. -/
theorem nearBy_lonCellM :
    NearBy (1 / 2 ^ 53) (360 / 2 ^ 23 * val (metersPerDegLon params i)) (val (lonCellM params i)) := by
  obtain ⟨hmFin, hmGe, hmLe⟩ := finiteIn_metersPerDegLon hi hpolar
  have hcircle := ((hasVal_lit360.fmul_roundsTo ⟨hmFin, rfl⟩).nearBy (by linarith) (by linarith)).2
  have hcell := hcircle.mul_right (1 / 2 ^ 23)
  rw [(hasVal_lonCellM hi hpolar).val_eq]
  rwa [mul_one_div, mul_one_div, mul_div_right_comm] at hcell

/-- `z` of R140, the degrees from -180 that the metres of a centre are, is near the exact ones. -/
theorem nearBy_degrees {j : Nat} (hj : j < 2 ^ 23) :
    isFinite (fdiv (fmul (fadd (n2f j) litHalf) (lonCellM params i)) (metersPerDegLon params i)) = true
    ∧ NearBy (1 / 2 ^ 51) ((2 * j + 1) / 2 * (360 / 2 ^ 23))
        (val (fdiv (fmul (fadd (n2f j) litHalf) (lonCellM params i)) (metersPerDegLon params i))) := by
  obtain ⟨hmFin, hmGe, hmLe⟩ := finiteIn_metersPerDegLon hi hpolar
  obtain ⟨hcFin, hcGe, hcLe⟩ := finiteIn_circle hi hpolar
  have hcell := hasVal_lonCellM hi hpolar
  have hj0 : (0 : ℚ) ≤ j := by positivity
  have hj' : (j : ℚ) + 1 ≤ 2 ^ 23 := by exact_mod_cast hj
  have hround := (hasVal_indexHalf hj).fmul_roundsTo hcell
  have hscale := (nearBy_lonCellM hi hpolar).mul_right ((2 * j + 1) / 2)
  rw [hcell.val_eq] at hscale
  generalize hw : fmul (fadd (n2f j) litHalf) (lonCellM params i) = w at hround ⊢
  generalize hcircle : val (fmul lit360 (metersPerDegLon params i)) = circle at *
  generalize metersPerDegLon params i = m at *
  have hlow : 1 / 2 ^ 6 ≤ (2 * j + 1) / 2 * (circle / 2 ^ 23) := by
    nlinarith
  have hhigh : (2 * j + 1) / 2 * (circle / 2 ^ 23) ≤ 40075200 := by
    nlinarith
  obtain ⟨hwFin, hwGe, hwLe⟩ := hround.between
    (representable_of_eq 1 6 (by norm_num) (by norm_num) (by decide))
    (representable_ofNat 40075200 (by decide)) hlow hhigh
  have hmetres := (hround.nearBy (by linarith) (by linarith)).2
  have hm0 : 0 < val m := by linarith
  have hquotLow : 1 / 2 ^ 64 ≤ val w / val m := by
    rw [le_div_iff₀ hm0]
    linarith
  have hquotHigh : val w / val m ≤ 2 ^ 64 := by
    rw [div_le_iff₀ hm0]
    linarith
  obtain ⟨hfin, hdegrees⟩ :=
    (HasVal.fdiv_roundsTo ⟨hwFin, rfl⟩ (⟨hmFin, rfl⟩ : HasVal m _) hm0.ne').nearBy hquotLow hquotHigh
  refine ⟨hfin, ?_⟩
  rw [mul_comm (circle / 2 ^ 23)] at hscale
  have hchain := ((hscale.trans hmetres).mul_right (1 / val m)).trans (by rwa [mul_one_div])
  have hcancel : 360 / 2 ^ 23 * val m * ((2 * j + 1) / 2) * (1 / val m) = (2 * j + 1) / 2 * (360 / 2 ^ 23) := by
    field_simp
  rw [hcancel] at hchain
  exact hchain.mono (by norm_num)

/-- The longitude of `MQDEC` before its clamp is within 2^-42 degrees of the centre (R141). -/
theorem lonCentreMetres_near {j : Nat} (hj : j < 2 ^ 23) :
    isFinite (lonCentreMetres params i j) = true
    ∧ |val (lonCentreMetres params i j) - cellCentre 23 j| < 1 / 2 ^ 42 := by
  have hj0 : (0 : ℚ) ≤ j := by positivity
  have hj' : (j : ℚ) + 1 ≤ 2 ^ 23 := by exact_mod_cast hj
  obtain ⟨hzFin, hz⟩ := nearBy_degrees hi hpolar hj
  rw [lonCentreMetres_params, lonCentre_eq]
  generalize fdiv (fmul (fadd (n2f j) litHalf) (lonCellM params i)) (metersPerDegLon params i) = z at *
  obtain ⟨x, hx⟩ : ∃ x : ℚ, x = (2 * j + 1) / 2 * (360 / 2 ^ 23) := ⟨_, rfl⟩
  rw [← hx] at hz ⊢
  have hx0 : 0 ≤ x := by rw [hx]; positivity
  have hx360 : x ≤ 360 := by rw [hx]; linarith
  have hzx := abs_le.1 (hz.abs_sub_le (abs_le.2 ⟨by linarith, hx360⟩))
  have hsum : |-180 + val z| ≤ 181 := abs_le.2 ⟨by linarith [hzx.1], by linarith [hzx.2]⟩
  obtain ⟨hfin, herror⟩ := (hasVal_litNeg180.fadd_roundsTo ⟨hzFin, rfl⟩).error hsum
    (normal_of_le (by norm_num)) (by norm_num)
  refine ⟨hfin, ?_⟩
  obtain ⟨he1, he2⟩ := abs_le.1 herror
  obtain ⟨hz1, hz2⟩ := hzx
  rw [abs_lt]
  constructor <;> linarith

end

/-- The longitude of `MQDEC` is finite and near the centre, in either branch (R141). -/
theorem mqLon_near (i : U22) (j : U23) :
    isFinite (mqLon params i j) = true ∧ |val (mqLon params i j) - cellCentre 23 j.toNat| < 1 / 2 ^ 42 := by
  cases hpolar : polar params i.toNat with
  | true =>
    rw [mqLon_of_polar hpolar, (hasVal_uqLon j).val_eq, sub_self, abs_zero]
    exact ⟨(hasVal_uqLon j).fin, by positivity⟩
  | false =>
    obtain ⟨hfin, hnear⟩ := lonCentreMetres_near i.isLt hpolar j.isLt
    have hinside : |val (lonCentreMetres params i.toNat j.toNat)| ≤ 180 := by
      have hcentre := abs_le.1 (abs_cellCentre_le j.isLt)
      obtain ⟨h1, h2⟩ := abs_lt.1 hnear
      rw [abs_le]
      constructor <;> linarith [hcentre.1, hcentre.2]
    have hbranch : mqLon params i j = lonCentreMetres params i.toNat j.toNat := by
      rw [polar_params] at hpolar
      rw [mqLon_params, if_neg (Bool.eq_false_iff.1 hpolar), HasVal.clampLon ⟨hfin, rfl⟩ hinside]
    rw [hbranch]
    exact ⟨hfin, hnear⟩

/-- Settles O35: the polar longitude is the centre, and off the caps three relative errors of at most 360 degrees and
the rounding of the last sum stay below 2^-42. -/
theorem mqdecLongitudeIsNearTheCentre : Obligations.MqdecLongitudeIsNearTheCentre := by
  intro i j
  obtain ⟨hfin, hnear⟩ := mqLon_near i j
  rw [cellCentre_lon] at hnear
  exact ⟨_, _, respond_mqdec i j, hfin, hnear⟩

/-! ### `MQENC` near a centre -/

/-- `MQENC`'s latitude steps are exact at a centre, and end half a cell above its index (R142). -/
theorem mqLatIndex_of_centre {lat : F64} {i : U22} (h : HasVal lat (cellCentre 22 i.toNat)) :
    mqLatIndex params lat = i.toNat := by
  have hi := i.isLt
  generalize i.toNat = n at *
  have hdegrees : HasVal (fadd lat lit90) ((2 * n + 1) * 45 / 2 ^ 21) :=
    (h.fadd_roundsTo hasVal_lit90).hasVal_of_eq (by rw [cellCentre]; ring)
      (representable_odd_mul n 45 (by omega) (by decide))
  have hmetres : HasVal (fmul (fadd lat lit90) lit111320) ((2 * n + 1) * 5009400 / 2 ^ 21) :=
    (hdegrees.fmul_roundsTo hasVal_lit111320).hasVal_of_eq (by ring)
      (representable_odd_mul n 5009400 (by omega) (by decide))
  have hcells : HasVal (fdiv (fmul (fadd lat lit90) lit111320) 0x40131BFE00000000) ((2 * n + 1) / 2 ^ 1) :=
    (hmetres.fdiv_roundsTo hasVal_cellSize (by norm_num)).hasVal_of_eq (by ring)
      (representable_odd n (by omega) (by decide))
  rw [mqLatIndex_params, hcells.floorNat, floor_index_half]
  omega

/-- The longitude in cells is near the exact one (R142). -/
theorem nearBy_lonCells {i : Nat} (hi : i < 2 ^ 22) (hpolar : polar params i = false) {x : ℚ} {u : F64}
    (hu : RoundsTo x u) (hx : 1 / 2 ^ 20 ≤ x) (hx' : x ≤ 360) :
    isFinite (fdiv (fmul u (metersPerDegLon params i)) (lonCellM params i)) = true
    ∧ NearBy (1 / 2 ^ 50) (x * (2 ^ 23 / 360))
        (val (fdiv (fmul u (metersPerDegLon params i)) (lonCellM params i))) := by
  obtain ⟨hmFin, hmGe, hmLe⟩ := finiteIn_metersPerDegLon hi hpolar
  obtain ⟨hcFin, hcGe, hcLe⟩ := finiteIn_circle hi hpolar
  have hwidth := hasVal_lonCellM hi hpolar
  have hcell := nearBy_lonCellM hi hpolar
  obtain ⟨huFin, huGe, huLe⟩ := hu.between (representable_of_eq 1 20 (by norm_num) (by norm_num) (by decide))
    hasVal_lit360.representable hx hx'
  have hdegrees := (hu.nearBy (by linarith) (by linarith)).2
  generalize hcircle : val (fmul lit360 (metersPerDegLon params i)) = circle at *
  generalize hm : metersPerDegLon params i = m at *
  have hm0 : 0 < val m := by linarith
  have hround := HasVal.fmul_roundsTo (⟨huFin, rfl⟩ : HasVal u _) (⟨hmFin, rfl⟩ : HasVal m _)
  obtain ⟨hLFin, hLGe, hLLe⟩ := hround.between (lo := 1 / 2 ^ 11) (hi := 40075200)
    (representable_of_eq 1 11 (by norm_num) (by norm_num) (by decide))
    (representable_ofNat 40075200 (by decide)) (by nlinarith) (by nlinarith)
  have hmetres := (hround.nearBy (by nlinarith) (by nlinarith)).2
  have hpos : 0 < circle / 2 ^ 23 := by linarith
  have hquotLow : 1 / 2 ^ 64 ≤ val (fmul u m) / (circle / 2 ^ 23) := by
    rw [le_div_iff₀ hpos]
    linarith
  have hquotHigh : val (fmul u m) / (circle / 2 ^ 23) ≤ 2 ^ 64 := by
    rw [div_le_iff₀ hpos]
    linarith
  obtain ⟨hfin, hcells⟩ :=
    (HasVal.fdiv_roundsTo ⟨hLFin, rfl⟩ hwidth hpos.ne').nearBy hquotLow hquotHigh
  refine ⟨hfin, ?_⟩
  have hscaled := ((hdegrees.mul_right (val m)).trans hmetres).mul_right (1 / (360 / 2 ^ 23 * val m))
  rw [mul_one_div (x * val m), mul_one_div (val (fmul u m))] at hscaled
  have hdivided := hcell.div_left (by norm_num) (val (fmul u m))
  rw [hwidth.val_eq] at hdivided
  have hchain := (hscaled.trans hdivided).trans hcells
  have hcancel : x * val m / (360 / 2 ^ 23 * val m) = x * (2 ^ 23 / 360) := by
    field_simp
  rw [hcancel] at hchain
  exact hchain.mono (by norm_num)

/-- `MQENC`'s longitude steps off the caps end near half a cell above the index of a point near a centre (R142). -/
theorem mqLonIndexMetres_of_near {i : Nat} (hi : i < 2 ^ 22) (hpolar : polar params i = false) {j : Nat}
    (hj : j < 2 ^ 23) {lon : F64} (hfin : isFinite lon = true) (hnear : |val lon - cellCentre 23 j| < 1 / 2 ^ 42) :
    mqLonIndexMetres params i lon = j := by
  have hj0 : (0 : ℚ) ≤ j := by positivity
  have hj' : (j : ℚ) + 1 ≤ 2 ^ 23 := by exact_mod_cast hj
  rw [lonCentre_eq] at hnear
  obtain ⟨h1, h2⟩ := abs_lt.1 hnear
  have hsum := HasVal.fadd_roundsTo (⟨hfin, rfl⟩ : HasVal lon _) hasVal_lit180
  obtain ⟨hcFin, hcells⟩ := nearBy_lonCells hi hpolar hsum (by linarith) (by linarith)
  have herror := abs_le.1 (hcells.abs_sub_le (B := 2 ^ 23) (abs_le.2 ⟨by linarith, by linarith⟩))
  have hfloor : ⌊val (fdiv (fmul (fadd lon lit180) (metersPerDegLon params i)) (lonCellM params i))⌋ = j := by
    rw [Int.floor_eq_iff, Int.cast_natCast]
    constructor <;> linarith [herror.1, herror.2]
  rw [mqLonIndexMetres_params, HasVal.floorNat ⟨hcFin, rfl⟩, hfloor, Int.toNat_natCast]
  omega

/-- `MQENC` of what `MQDEC` gives for a longitude is its index, in the branch that both take (R142). -/
theorem mqLonIndex_mqLon (i : U22) (j : U23) : mqLonIndex params i.toNat (mqLon params i j) = j.toNat := by
  cases hpolar : polar params i.toNat with
  | true =>
    rw [mqLonIndex, if_pos hpolar, mqLon_of_polar hpolar]
    exact uqLonIndex_of_centre (hasVal_uqLon j)
  | false =>
    obtain ⟨hfin, hnear⟩ := mqLon_near i j
    rw [mqLonIndex, if_neg (Bool.eq_false_iff.1 hpolar)]
    exact mqLonIndexMetres_of_near i.isLt hpolar j.isLt hfin hnear

/-- What `MQDEC` gives is in range. -/
theorem within_mqLon (i : U22) (j : U23) : Within 180 (mqLon params i j) := by
  obtain ⟨hfin, hnear⟩ := mqLon_near i j
  obtain ⟨hc1, hc2⟩ := abs_le.1 (abs_cellCentre_le j.isLt)
  obtain ⟨h1, h2⟩ := abs_lt.1 hnear
  refine ⟨hfin, ?_, ?_⟩ <;> linarith

/-- Settles O36: the latitude is the centre and comes back exactly, so `MQENC` takes the same band and the same branch;
there the longitude, within 2^-42 degrees of its centre, ends near half a cell above its index. -/
theorem meterBasedRoundTripReturnsTheCell : Obligations.MeterBasedRoundTripReturnsTheCell := by
  intro i j
  have hlat := hasVal_mqLat i
  refine ⟨_, _, respond_mqdec i j, ?_⟩
  rw [respond_mqenc_of_within (hlat.within (abs_latCentre_le i)) (within_mqLon i j), mqLatIndex_of_centre hlat,
    mqLonIndex_mqLon, cellResult_toNat]

end Sys2Proof.Machine
end
